-- ==== Sys2Proof/Word.lean ====
section
/-! DEFINITION. The widths of the machine: bytes, words, register numbers, the fields of an instruction word. -/

namespace Sys2Proof

/-- A memory cell, a general register, a timer (R5, R10, R20). -/
abbrev Byte := BitVec 8

/-- `I`, `PC`, a stack slot, an instruction word (R14, R15, R17, R70). -/
abbrev Word := BitVec 16

/-- The index of a general register `V[0]` to `V[15]` (R10). Every 4-bit index is valid. -/
abbrev Reg := Fin 16

/-- The field `n` of `Dxyn` (R72). -/
abbrev Nibble := BitVec 4

/-- The field `nnn`: a 12-bit address (R72). -/
abbrev Addr12 := BitVec 12

end Sys2Proof
end

