-- ==== Sys2Proof/Syntax.lean ====
section
/-! DEFINITION. The instructions: one constructor for each of the 34 rows of the opcode map (R75), in the table's order. -/

namespace Sys2Proof

/-- The closed instruction set (R2, R75). Operands are the fields of R72; their types hold exactly the values the
encoding admits, and every one of those values is legal (R10, R72, R77). -/
inductive Instr where
  /-- `00E0` clear the display (R140). -/
  | cls
  /-- `00EE` return (R100). -/
  | ret
  /-- `1nnn` jump (R101). -/
  | jp (nnn : Addr12)
  /-- `2nnn` call (R102). -/
  | call (nnn : Addr12)
  /-- `3xkk` skip if `V[x] = kk` (R104). -/
  | seImm (x : Reg) (kk : Byte)
  /-- `4xkk` skip if `V[x] ≠ kk` (R105). -/
  | sneImm (x : Reg) (kk : Byte)
  /-- `5xy0` skip if `V[x] = V[y]` (R106). -/
  | seReg (x y : Reg)
  /-- `6xkk` load immediate (R110). -/
  | ldImm (x : Reg) (kk : Byte)
  /-- `7xkk` add immediate, no flag (R111). -/
  | addImm (x : Reg) (kk : Byte)
  /-- `8xy0` move (R112). -/
  | ldReg (x y : Reg)
  /-- `8xy1` bitwise or (R113). -/
  | orReg (x y : Reg)
  /-- `8xy2` bitwise and (R114). -/
  | andReg (x y : Reg)
  /-- `8xy3` bitwise exclusive or (R115). -/
  | xorReg (x y : Reg)
  /-- `8xy4` add, VF = carry (R116). -/
  | addReg (x y : Reg)
  /-- `8xy5` subtract, VF = not borrow (R117). -/
  | subReg (x y : Reg)
  /-- `8xy6` shift right, VF = bit shifted out (R118). -/
  | shr (x y : Reg)
  /-- `8xy7` reverse subtract, VF = not borrow (R119). -/
  | subn (x y : Reg)
  /-- `8xyE` shift left, VF = bit shifted out (R120). -/
  | shl (x y : Reg)
  /-- `9xy0` skip if `V[x] ≠ V[y]` (R107). -/
  | sneReg (x y : Reg)
  /-- `Annn` load `I` (R130). -/
  | ldI (nnn : Addr12)
  /-- `Bnnn` jump to `nnn + V[0]` (R103). -/
  | jpV0 (nnn : Addr12)
  /-- `Cxkk` random byte and `kk` (R155). -/
  | rnd (x : Reg) (kk : Byte)
  /-- `Dxyn` draw sprite (R141). -/
  | drw (x y : Reg) (n : Nibble)
  /-- `Ex9E` skip if the key is pressed (R153). -/
  | skp (x : Reg)
  /-- `ExA1` skip if the key is not pressed (R154). -/
  | sknp (x : Reg)
  /-- `Fx07` read the delay timer (R150). -/
  | ldVxDt (x : Reg)
  /-- `Fx0A` wait for a key (R156). -/
  | ldVxK (x : Reg)
  /-- `Fx15` set the delay timer (R151). -/
  | ldDtVx (x : Reg)
  /-- `Fx18` set the sound timer (R152). -/
  | ldStVx (x : Reg)
  /-- `Fx1E` add to `I` (R131). -/
  | addI (x : Reg)
  /-- `Fx29` glyph address (R132). -/
  | ldF (x : Reg)
  /-- `Fx33` store BCD (R133). -/
  | ldB (x : Reg)
  /-- `Fx55` store `V[0..x]` (R134). -/
  | ldMemVx (x : Reg)
  /-- `Fx65` load `V[0..x]` (R135). -/
  | ldVxMem (x : Reg)
  deriving DecidableEq, Repr

end Sys2Proof
end

