-- ==== Sys2Proof/WellFormed.lean ====
section
/-! DEFINITION. Well-formedness: of a row of the opcode map, of the whole map, of an instruction word, of a program.

An `Instr` needs no check of its own: its operand types hold exactly the values of the fields of R72, and every value of
every field is legal (R10, R72, R77). What can be ill-formed is a row (match bits its mask does not cover), a map (two rows
that some word matches together, R74), a word (it matches no row, R78) and a program (longer than 3584 bytes, R50). -/

namespace Sys2Proof

/-- One row of the opcode map: a word `op` selects it when `op &&& mask = value` (R74). -/
structure OpcodeRow where
  mask : Word
  value : Word
  deriving DecidableEq, Repr

/-- The word selects the row (R74). -/
def OpcodeRow.selects (r : OpcodeRow) (op : Word) : Bool := op &&& r.mask == r.value

/-- Every match bit is covered by the mask, so that some word selects the row. -/
def OpcodeRow.wf (r : OpcodeRow) : Bool := r.value &&& r.mask == r.value

/-- No word selects both rows: they fix some common bit differently. -/
def OpcodeRow.disjoint (r q : OpcodeRow) : Bool := r.value &&& q.mask != q.value &&& r.mask

/-- The map is well-formed: every row is, and the rows are pairwise disjoint (R74). -/
def opcodeMapWf (rows : List OpcodeRow) : Bool :=
  rows.all OpcodeRow.wf && decide (rows.Pairwise fun r q => r.disjoint q = true)

/-- Rows of R75 (part A), in the table's order, mask then match. -/
def opcodeMapA : List OpcodeRow :=
   [⟨0xFFFF, 0x00E0⟩,
    ⟨0xFFFF, 0x00EE⟩,
    ⟨0xF000, 0x1000⟩,
    ⟨0xF000, 0x2000⟩,
    ⟨0xF000, 0x3000⟩,
    ⟨0xF000, 0x4000⟩,
    ⟨0xF00F, 0x5000⟩,
    ⟨0xF000, 0x6000⟩,
    ⟨0xF000, 0x7000⟩,
    ⟨0xF00F, 0x8000⟩,
    ⟨0xF00F, 0x8001⟩,
    ⟨0xF00F, 0x8002⟩]

/-- Rows of R75 (part B), in the table's order, mask then match. -/
def opcodeMapB : List OpcodeRow :=
   [⟨0xF00F, 0x8003⟩,
    ⟨0xF00F, 0x8004⟩,
    ⟨0xF00F, 0x8005⟩,
    ⟨0xF00F, 0x8006⟩,
    ⟨0xF00F, 0x8007⟩,
    ⟨0xF00F, 0x800E⟩,
    ⟨0xF00F, 0x9000⟩,
    ⟨0xF000, 0xA000⟩,
    ⟨0xF000, 0xB000⟩,
    ⟨0xF000, 0xC000⟩,
    ⟨0xF000, 0xD000⟩]

/-- Rows of R75 (part C), in the table's order, mask then match. -/
def opcodeMapC : List OpcodeRow :=
   [⟨0xF0FF, 0xE09E⟩,
    ⟨0xF0FF, 0xE0A1⟩,
    ⟨0xF0FF, 0xF007⟩,
    ⟨0xF0FF, 0xF00A⟩,
    ⟨0xF0FF, 0xF015⟩,
    ⟨0xF0FF, 0xF018⟩,
    ⟨0xF0FF, 0xF01E⟩,
    ⟨0xF0FF, 0xF029⟩,
    ⟨0xF0FF, 0xF033⟩,
    ⟨0xF0FF, 0xF055⟩,
    ⟨0xF0FF, 0xF065⟩]

/-- The 34 rows of R75. -/
def opcodeMap : List OpcodeRow := opcodeMapA ++ opcodeMapB ++ opcodeMapC

/-- The word matches some row of R75; every other word is illegal (R78). -/
def legalWord (op : Word) : Bool := opcodeMap.any fun r => r.selects op

/-- The program fits at 0x200 (R50). -/
def programFits (bytes : List Byte) : Bool := bytes.length ≤ 3584

end Sys2Proof
end

