-- ==== Sys2Proof/Decode.lean ====
section
/-! DEFINITION. The decoder (R70, R72, R74, R76, R78), total on any bytes, and after it the encoder (R71, R75). -/

namespace Sys2Proof

/-! ## Fields (R72) -/

/-- `x = op[11:8]`. -/
def fieldX (op : Word) : Reg := (op.extractLsb' 8 4).toFin

/-- `y = op[7:4]`. -/
def fieldY (op : Word) : Reg := (op.extractLsb' 4 4).toFin

/-- `n = op[3:0]`. -/
def fieldN (op : Word) : Nibble := op.extractLsb' 0 4

/-- `kk = op[7:0]`. -/
def fieldKK (op : Word) : Byte := op.extractLsb' 0 8

/-- `nnn = op[11:0]`. -/
def fieldNNN (op : Word) : Addr12 := op.extractLsb' 0 12

/-- The major opcode `op[15:12]` (R70, R74). -/
def fieldTop (op : Word) : Nibble := op.extractLsb' 12 4

/-! ## Decoding a word (R76) -/

/-- Top nibble 0: the whole word is compared; every other `0nnn` is illegal (R76, R78). -/
def decode0 (op : Word) : Option Instr :=
  if op = 0x00E0#16 then some .cls
  else if op = 0x00EE#16 then some .ret
  else none

/-- Top nibble 8, by `op[3:0]` (R76). -/
def decode8 (op : Word) : Option Instr :=
  match (fieldN op).toNat with
  | 0x0 => some (.ldReg (fieldX op) (fieldY op))
  | 0x1 => some (.orReg (fieldX op) (fieldY op))
  | 0x2 => some (.andReg (fieldX op) (fieldY op))
  | 0x3 => some (.xorReg (fieldX op) (fieldY op))
  | 0x4 => some (.addReg (fieldX op) (fieldY op))
  | 0x5 => some (.subReg (fieldX op) (fieldY op))
  | 0x6 => some (.shr (fieldX op) (fieldY op))
  | 0x7 => some (.subn (fieldX op) (fieldY op))
  | 0xE => some (.shl (fieldX op) (fieldY op))
  | _ => none

/-- Top nibble 0xE, by `op[7:0]` (R76). -/
def decodeE (op : Word) : Option Instr :=
  if fieldKK op = 0x9E#8 then some (.skp (fieldX op))
  else if fieldKK op = 0xA1#8 then some (.sknp (fieldX op))
  else none

/-- Top nibble 0xF, by `op[7:0]` (R76). -/
def decodeF (op : Word) : Option Instr :=
  match (fieldKK op).toNat with
  | 0x07 => some (.ldVxDt (fieldX op))
  | 0x0A => some (.ldVxK (fieldX op))
  | 0x15 => some (.ldDtVx (fieldX op))
  | 0x18 => some (.ldStVx (fieldX op))
  | 0x1E => some (.addI (fieldX op))
  | 0x29 => some (.ldF (fieldX op))
  | 0x33 => some (.ldB (fieldX op))
  | 0x55 => some (.ldMemVx (fieldX op))
  | 0x65 => some (.ldVxMem (fieldX op))
  | _ => none

/-- The instruction a word stands for, or `none` for an illegal word (R74, R76, R78, R93). -/
def decodeWord (op : Word) : Option Instr :=
  match (fieldTop op).toNat with
  | 0x0 => decode0 op
  | 0x1 => some (.jp (fieldNNN op))
  | 0x2 => some (.call (fieldNNN op))
  | 0x3 => some (.seImm (fieldX op) (fieldKK op))
  | 0x4 => some (.sneImm (fieldX op) (fieldKK op))
  | 0x5 => if fieldN op = 0#4 then some (.seReg (fieldX op) (fieldY op)) else none
  | 0x6 => some (.ldImm (fieldX op) (fieldKK op))
  | 0x7 => some (.addImm (fieldX op) (fieldKK op))
  | 0x8 => decode8 op
  | 0x9 => if fieldN op = 0#4 then some (.sneReg (fieldX op) (fieldY op)) else none
  | 0xA => some (.ldI (fieldNNN op))
  | 0xB => some (.jpV0 (fieldNNN op))
  | 0xC => some (.rnd (fieldX op) (fieldKK op))
  | 0xD => some (.drw (fieldX op) (fieldY op) (fieldN op))
  | 0xE => decodeE op
  | _ => decodeF op

/-! ## Decoding bytes -/

/-- Why a sequence of bytes is not an instruction. -/
inductive DecodeError where
  /-- Fewer than two bytes. -/
  | truncated
  /-- The word matches no row of the opcode map (R78). -/
  | illegal (op : Word)
  deriving DecidableEq, Repr

/-- The instruction word of two bytes: the first, at the lower address, is the high one (R56, R70). -/
def wordOfBytes (hi lo : Byte) : Word := hi ++ lo

/-- The first instruction of a sequence of bytes and the bytes after it, or the reason there is none. -/
def decode : List Byte → Except DecodeError (Instr × List Byte)
  | hi :: lo :: rest =>
    match decodeWord (wordOfBytes hi lo) with
    | some i => .ok (i, rest)
    | none => .error (.illegal (wordOfBytes hi lo))
  | _ => .error .truncated

/-- The two bytes of an instruction word as memory holds them, high byte first (R56). -/
def bytesOfWord (op : Word) : List Byte := [op.extractLsb' 8 8, op.extractLsb' 0 8]

/-- The instruction word of the numeral `w` of `nbits` bits, with the bits above `nbits` zero. -/
def tableWord (nbits w : Nat) : Word := BitVec.ofNat 16 (w % 2 ^ nbits)

/-- What the decoder reads from the word `w` of `nbits` bits, laid out as memory holds it. -/
def decodeTableWord (nbits w : Nat) : Option Instr :=
  match decode (bytesOfWord (tableWord nbits w)) with
  | .ok (i, _) => some i
  | .error _ => none

/-! ## Encoding (R71, R75) -/

/-- A register number as the nibble of a word. -/
def regBits (x : Reg) : Nibble := BitVec.ofFin x

/-- Format `A`: major opcode, `nnn` (R71). -/
def formatA (top : Nibble) (nnn : Addr12) : Word := top ++ nnn

/-- Format `XK`: major opcode, `x`, `kk`; format `X` is the same with a fixed low byte (R71). -/
def formatXK (top : Nibble) (x : Reg) (kk : Byte) : Word := (top ++ regBits x) ++ kk

/-- Format `XYN`: major opcode, `x`, `y`, `n`; format `XY` is the same with a fixed low nibble (R71). -/
def formatXYN (top : Nibble) (x y : Reg) (n : Nibble) : Word := (top ++ regBits x) ++ (regBits y ++ n)

/-- The word of an instruction (R71, R75). -/
def encode : Instr → Word
  | .cls => 0x00E0#16
  | .ret => 0x00EE#16
  | .jp nnn => formatA 0x1#4 nnn
  | .call nnn => formatA 0x2#4 nnn
  | .seImm x kk => formatXK 0x3#4 x kk
  | .sneImm x kk => formatXK 0x4#4 x kk
  | .seReg x y => formatXYN 0x5#4 x y 0x0#4
  | .ldImm x kk => formatXK 0x6#4 x kk
  | .addImm x kk => formatXK 0x7#4 x kk
  | .ldReg x y => formatXYN 0x8#4 x y 0x0#4
  | .orReg x y => formatXYN 0x8#4 x y 0x1#4
  | .andReg x y => formatXYN 0x8#4 x y 0x2#4
  | .xorReg x y => formatXYN 0x8#4 x y 0x3#4
  | .addReg x y => formatXYN 0x8#4 x y 0x4#4
  | .subReg x y => formatXYN 0x8#4 x y 0x5#4
  | .shr x y => formatXYN 0x8#4 x y 0x6#4
  | .subn x y => formatXYN 0x8#4 x y 0x7#4
  | .shl x y => formatXYN 0x8#4 x y 0xE#4
  | .sneReg x y => formatXYN 0x9#4 x y 0x0#4
  | .ldI nnn => formatA 0xA#4 nnn
  | .jpV0 nnn => formatA 0xB#4 nnn
  | .rnd x kk => formatXK 0xC#4 x kk
  | .drw x y n => formatXYN 0xD#4 x y n
  | .skp x => formatXK 0xE#4 x 0x9E#8
  | .sknp x => formatXK 0xE#4 x 0xA1#8
  | .ldVxDt x => formatXK 0xF#4 x 0x07#8
  | .ldVxK x => formatXK 0xF#4 x 0x0A#8
  | .ldDtVx x => formatXK 0xF#4 x 0x15#8
  | .ldStVx x => formatXK 0xF#4 x 0x18#8
  | .addI x => formatXK 0xF#4 x 0x1E#8
  | .ldF x => formatXK 0xF#4 x 0x29#8
  | .ldB x => formatXK 0xF#4 x 0x33#8
  | .ldMemVx x => formatXK 0xF#4 x 0x55#8
  | .ldVxMem x => formatXK 0xF#4 x 0x65#8

/-- The bytes of an instruction as memory holds them (R56). -/
def encodeBytes (i : Instr) : List Byte := bytesOfWord (encode i)

/-- The number of the instruction's row in `opcodeMap` (R75). -/
def rowNumber : Instr → Nat
  | .cls => 0 | .ret => 1 | .jp _ => 2 | .call _ => 3 | .seImm _ _ => 4 | .sneImm _ _ => 5 | .seReg _ _ => 6
  | .ldImm _ _ => 7 | .addImm _ _ => 8 | .ldReg _ _ => 9 | .orReg _ _ => 10 | .andReg _ _ => 11
  | .xorReg _ _ => 12 | .addReg _ _ => 13 | .subReg _ _ => 14 | .shr _ _ => 15 | .subn _ _ => 16 | .shl _ _ => 17
  | .sneReg _ _ => 18 | .ldI _ => 19 | .jpV0 _ => 20 | .rnd _ _ => 21 | .drw _ _ _ => 22
  | .skp _ => 23 | .sknp _ => 24 | .ldVxDt _ => 25 | .ldVxK _ => 26 | .ldDtVx _ => 27 | .ldStVx _ => 28
  | .addI _ => 29 | .ldF _ => 30 | .ldB _ => 31 | .ldMemVx _ => 32 | .ldVxMem _ => 33

/-! ## Names (R75, R82) -/

/-- Rows of R75 (part A): pattern and customary assembly form. -/
def assemblyTableA : List (String × String) :=
  [("00E0", "CLS"), ("00EE", "RET"), ("1nnn", "JP nnn"), ("2nnn", "CALL nnn"), ("3xkk", "SE Vx, kk"),
   ("4xkk", "SNE Vx, kk"), ("5xy0", "SE Vx, Vy"), ("6xkk", "LD Vx, kk"), ("7xkk", "ADD Vx, kk"),
   ("8xy0", "LD Vx, Vy"), ("8xy1", "OR Vx, Vy"), ("8xy2", "AND Vx, Vy")]

/-- Rows of R75 (part B): pattern and customary assembly form. -/
def assemblyTableB : List (String × String) :=
  [("8xy3", "XOR Vx, Vy"), ("8xy4", "ADD Vx, Vy"), ("8xy5", "SUB Vx, Vy"), ("8xy6", "SHR Vx, Vy"),
   ("8xy7", "SUBN Vx, Vy"), ("8xyE", "SHL Vx, Vy"), ("9xy0", "SNE Vx, Vy"), ("Annn", "LD I, nnn"),
   ("Bnnn", "JP V0, nnn"), ("Cxkk", "RND Vx, kk"), ("Dxyn", "DRW Vx, Vy, n")]

/-- Rows of R75 (part C): pattern and customary assembly form. -/
def assemblyTableC : List (String × String) :=
  [("Ex9E", "SKP Vx"), ("ExA1", "SKNP Vx"), ("Fx07", "LD Vx, DT"), ("Fx0A", "LD Vx, K"), ("Fx15", "LD DT, Vx"),
   ("Fx18", "LD ST, Vx"), ("Fx1E", "ADD I, Vx"), ("Fx29", "LD F, Vx"), ("Fx33", "LD B, Vx"), ("Fx55", "LD [I], Vx"),
   ("Fx65", "LD Vx, [I]")]

/-- The pattern and the assembly form of each row of R75, in the table's order. A reading aid: nothing depends on it (R82). -/
def assemblyTable : List (String × String) := assemblyTableA ++ assemblyTableB ++ assemblyTableC

/-- The pattern that names the instruction in the spec (R70, R82). -/
def Instr.pattern (i : Instr) : String := (assemblyTable.getD (rowNumber i) ("", "")).1

/-- The customary assembly form of the instruction, with the names of its fields for operands (R82, the spec's D26). -/
def Instr.assemblyForm (i : Instr) : String := (assemblyTable.getD (rowNumber i) ("", "")).2

end Sys2Proof
end

