-- ==== Sys2Proof/Config.lean ====
section
/-! DEFINITION. What an implementation fixes (the two open parameters of R5) and the one free value (R33).

The fixed parameters of R5 stand as numerals where they are used: memory of 4096 bytes, programs at 0x200 of at most
3584 bytes, 16 registers, 16 stack slots, a display of 32 rows and 64 columns, 16 keys, 16 glyphs of 5 bytes. -/

namespace Sys2Proof

/-- `SHIFT_SOURCE` (R5, R118, R120; decision D4): which register `8xy6` and `8xyE` shift. -/
inductive ShiftSource where
  | vx
  | vy
  deriving DecidableEq, Repr

/-- The open parameters of R5. They are fixed for one machine: no transaction writes them. -/
structure Params where
  /-- `FONT_BASE`, legal values 0x000 to 0x1B0 (R5, R45; decision D2). -/
  fontBase : Fin 0x1B1
  /-- `SHIFT_SOURCE` (R5; decision D4). -/
  shiftSource : ShiftSource
  deriving DecidableEq, Repr

/-- The spec's defaults: `FONT_BASE = 0x050`, `SHIFT_SOURCE = VX` (R5). DESIGN CHOICE (the spec's D2 and D4; log 1). -/
def Params.default : Params := { fontBase := 0x050, shiftSource := .vx }

/-- The byte `rnd` supplied from outside with a step that executes `Cxkk` (R33, R155): any byte at each draw, under no
law. FREE VALUE (log 2): no body, so nothing can be proved of any value of it. -/
opaque Config.randomByte : Nat → Byte

end Sys2Proof
end

