-- ==== Sys2Proof/Machine/State.lean ====
section
/-! DEFINITION. The state of the machine as plain data (R10 to R26), the transactions of the driver, the reasons a
transaction stops, and the state after reset (R30). -/

namespace Sys2Proof.Machine

/-- `RUN` (R23): running, or waiting for a key that goes to register `t`. -/
inductive RunState where
  | running
  | waitingForKey (t : Reg)
  deriving DecidableEq, Repr

/-- `DISP` (R21): 32 rows from the top, each of 64 columns from the left; `true` is a set cell. -/
abbrev Display := Vector (Vector Bool 64) 32

/-- Memory (R40) as the list of the cells that differ from the reset contents, addresses strictly rising. What an address
that is not listed reads as is `background` of `Machine/Font.lean`. -/
abbrev Memory := List Host.Cell

/-- The transactions of the driver other than `step` and pure observation (R6). -/
inductive HostMove where
  /-- `reset` (R190). -/
  | reset
  /-- `load(bytes)` (R50). -/
  | load (bytes : List Byte)
  /-- `set_keys(k)`, bit `j` for key `j` (R177). -/
  | setKeys (k : Word)
  /-- `tick`, once per 60 Hz interval (R175). -/
  | tick
  /-- `clear_dirty` (R178). -/
  | clearDirty
  deriving DecidableEq, Repr

/-- The transactions of R6 that can change the state: `step`, whose input `rnd` is the free value of log 2, or another one of
the driver's. Pure observation changes nothing and is no transaction here. -/
inductive Transaction where
  /-- `step(rnd)` (R90). -/
  | step
  /-- Any other transaction. -/
  | host (m : HostMove)
  deriving DecidableEq, Repr

/-- Everything the spec gives the machine (R25: there is no other state), the parameters of R5, and the model's own two
fields `draws` and `schedule` (logs 2 and 3). -/
structure State where
  /-- `V[0]` to `V[15]` (R10); `V[15]` is the flag VF (R12). -/
  v : Vector Byte 16
  /-- `I` (R14). -/
  i : Word
  /-- `PC` (R17). -/
  pc : Word
  /-- `SP`, the number of occupied slots, 0 to 16 (R15). -/
  sp : Fin 17
  /-- `STACK[0]` to `STACK[15]` (R15). -/
  stack : Vector Word 16
  /-- `DT`, the delay timer (R20). -/
  dt : Byte
  /-- `ST`, the sound timer (R20). -/
  st : Byte
  /-- `MEM` (R24, R40). -/
  mem : Memory
  /-- `DISP` (R21). -/
  disp : Display
  /-- `DIRTY` (R21). -/
  dirty : Bool
  /-- `KEYS`, the Input Latch (R22); `true` is pressed. -/
  keys : Vector Bool 16
  /-- `RUN` (R23). -/
  run : RunState
  /-- The parameters of this machine (R5); no transaction writes them (log 1). -/
  params : Params
  /-- The MODEL'S own field: how many random bytes have been drawn (log 2). -/
  draws : Nat
  /-- The MODEL'S own field: the transactions the driver issues next, `step` among them, oldest first; after them
  it issues `step` alone (log 3). -/
  schedule : List Transaction
  deriving DecidableEq, Repr

/-- The fault kinds of R165. A fault is returned to the driver and commits nothing: the state stays as it was before the
transaction (R96, R169), so stopping here is the machine's own behaviour and SAFE. -/
inductive Fault where
  /-- Raised by the fetch (`PC > 4094`, R92) and by `Dxyn`, `Fx33`, `Fx55`, `Fx65` (R55), with the first address that fails
  the bound. Safe: the spec raises it. -/
  | addressOutOfRange (addr : Nat)
  /-- Raised by `load` of more than 3584 bytes, with the length offered (R50). Safe: the spec raises it. -/
  | programTooLarge (len : Nat)
  /-- Raised by `2nnn` when `SP = 16` (R102). Safe: the spec raises it. -/
  | stackOverflow
  /-- Raised by `00EE` when `SP = 0` (R100). Safe: the spec raises it. -/
  | stackUnderflow
  /-- Raised by decoding a word that matches no row, with the word (R78). Safe: the spec raises it. -/
  | illegalInstruction (op : Word)
  deriving DecidableEq, Repr

/-- Why the model gives no meaning. No instruction is refused. -/
inductive Refusal where
  /-- Raised by an arm of `exec` whose instruction has no meaning yet; no arm raises it. Safe: the machine would go on. -/
  | notModelled (mnemonic : String)
  deriving DecidableEq, Repr

/-- The state after reset of a machine with parameters `p` (R30, R190): nothing is listed in memory, which therefore reads as
the font at `FONT_BASE` and zero elsewhere. -/
def State.resetWith (p : Params) : State :=
  { v := Vector.replicate 16 0
    i := 0
    pc := 0x200
    sp := 0
    stack := Vector.replicate 16 0
    dt := 0
    st := 0
    mem := []
    disp := Vector.replicate 32 (Vector.replicate 64 false)
    dirty := true
    keys := Vector.replicate 16 false
    run := .running
    params := p
    draws := 0
    schedule := [] }

/-- The state after reset at the spec's default parameters (R5, R30; logs 1 to 3). -/
def State.reset : State := State.resetWith Params.default

end Sys2Proof.Machine
end

