-- ==== Sys2Proof/Machine/Font.lean ====
section
/-! DEFINITION. The font (R45, R47) and the reset contents of memory (R30, R42). -/

namespace Sys2Proof.Machine

/-- Glyphs 0 to 3 (R47). PRESUMED: the spec supplies the font bytes from general knowledge (its G1 and D3; log 4). -/
def fontA : List Byte :=
  [0xF0, 0x90, 0x90, 0x90, 0xF0,
   0x20, 0x60, 0x20, 0x20, 0x70,
   0xF0, 0x10, 0xF0, 0x80, 0xF0,
   0xF0, 0x10, 0xF0, 0x10, 0xF0]

/-- Glyphs 4 to 7 (R47). -/
def fontB : List Byte :=
  [0x90, 0x90, 0xF0, 0x10, 0x10,
   0xF0, 0x80, 0xF0, 0x10, 0xF0,
   0xF0, 0x80, 0xF0, 0x90, 0xF0,
   0xF0, 0x10, 0x20, 0x40, 0x40]

/-- Glyphs 8 to B (R47). -/
def fontC : List Byte :=
  [0xF0, 0x90, 0xF0, 0x90, 0xF0,
   0xF0, 0x90, 0xF0, 0x10, 0xF0,
   0xF0, 0x90, 0xF0, 0x90, 0x90,
   0xE0, 0x90, 0xE0, 0x90, 0xE0]

/-- Glyphs C to F (R47). -/
def fontD : List Byte :=
  [0xF0, 0x80, 0x80, 0x80, 0xF0,
   0xE0, 0x90, 0x90, 0x90, 0xE0,
   0xF0, 0x80, 0xF0, 0x80, 0xF0,
   0xF0, 0x80, 0xF0, 0x80, 0x80]

/-- `FONT[0..79]`, glyph 0 first (R47). -/
def fontBytes : List Byte := fontA ++ fontB ++ fontC ++ fontD

/-- What memory holds at reset, and so what an address that is not listed reads as: `FONT[i]` at `FONT_BASE + i` for `i` in
0 to 79, zero elsewhere (R30, R42, R45). -/
def background (p : Params) (a : Nat) : Byte :=
  if a < p.fontBase.val then 0 else fontBytes.getD (a - p.fontBase.val) 0

end Sys2Proof.Machine
end

