-- ==== Sys2Proof/Machine/Ops.lean ====
section
/-! DEFINITION. The named operations over memory, registers, the stack, the program counter and the other parts of the
state, and the one shared operation that raises a fault. -/

namespace Sys2Proof.Machine

/-! ## Raising a fault -/

/-- The one way a transaction ends in a fault (R165, R169). The machine transfers no control: there is no vector, no saved
register and no handler, and so no return from a fault either (R171). The fault goes to the driver and the state stays as
it was before the transaction (R96), which is why no state goes with it. -/
def raiseFault (f : Fault) : Host.Outcome State Fault Refusal := .fault f

/-- The numeric code of a fault, 0 being kept for no fault (R165, R167; the spec's decision D10). -/
def Fault.code : Fault → Nat
  | .addressOutOfRange _ => 1
  | .programTooLarge _ => 2
  | .stackOverflow => 3
  | .stackUnderflow => 4
  | .illegalInstruction _ => 5

/-! ## Memory as a list of cells -/

/-- The listed byte at an address, if there is one. -/
def Memory.find : Memory → Nat → Option Byte
  | [], _ => none
  | c :: m, a => if c.1 = a then some c.2 else Memory.find m a

/-- A cell put in its place among cells of other addresses. -/
def Memory.insertCell : Memory → Nat → Byte → Memory
  | [], a, b => [(a, b)]
  | c :: m, a, b => if a < c.1 then (a, b) :: c :: m else c :: Memory.insertCell m a b

/-- The list without the cells of an address. -/
def Memory.removeCell (m : Memory) (a : Nat) : Memory := m.filter fun c => c.1 != a

/-- One byte stored: the address is listed afterwards exactly when the byte differs from the reset contents. -/
def Memory.write (p : Params) (m : Memory) (a : Nat) (b : Byte) : Memory :=
  if b = background p a then Memory.removeCell m a else Memory.insertCell (Memory.removeCell m a) a b

/-- The canonical form: addresses strictly rising and below 4096, no cell equal to what its address reads as unlisted. -/
abbrev Memory.wf (p : Params) (m : Memory) : Prop :=
  m.Pairwise (fun c d => c.1 < d.1) ∧ ∀ c ∈ m, c.1 < 4096 ∧ c.2 ≠ background p c.1

/-! ## Memory of the state -/

/-- `MEM[a]`, without a bounds check (00_scope.md, Notation). -/
def State.memByte (s : State) (a : Nat) : Byte := (Memory.find s.mem a).getD (background s.params a)

/-- `MEM[a] <- b`, without a bounds check. -/
def State.putByte (s : State) (a : Nat) (b : Byte) : State := { s with mem := Memory.write s.params s.mem a b }

/-- `MemRead(a, 1)`, bounds-checked (R54). -/
def State.memRead (s : State) (a : Nat) : Except Fault Byte :=
  if 4096 ≤ a then .error (.addressOutOfRange a) else .ok (s.memByte a)

/-- The bytes stored at ascending addresses from `a` (R53, R60). -/
def State.writeBytes (s : State) (a : Nat) : List Byte → State
  | [] => s
  | b :: bs => (s.putByte a b).writeBytes (a + 1) bs

/-- The `n` bytes at ascending addresses from `a` (R53, R60). -/
def State.readBytes (s : State) (a n : Nat) : List Byte := (List.range n).map fun k => s.memByte (a + k)

/-- Some byte of an access to `count` bytes from `b` lies at 4096 or above. For a base below 4096 the first address to fail
is then 4096 (R55), which every user of this check reports. The check precedes every write (R96). -/
def pastEnd (b count : Nat) : Bool := 4096 < b + count

/-! ## Registers -/

/-- `V[x]` (R10). -/
def State.getV (s : State) (x : Reg) : Byte := s.v[x]

/-- `V[x] <- b` (R10). -/
def State.setV (s : State) (x : Reg) (b : Byte) : State := { s with v := s.v.set x b }

/-- The result in `V[x]`, and then the flag in `V[0xF]`, which wins when `x` is 0xF (R13). -/
def State.setVFlag (s : State) (x : Reg) (result flag : Byte) : State := (s.setV x result).setV 0xF flag

/-- The registers after `V[k] <- f k` for the first `n` values of `k`, ascending (R135). -/
def loadRegs (v : Vector Byte 16) (f : Nat → Byte) : Nat → Vector Byte 16
  | 0 => v
  | n + 1 => (loadRegs v f n).setIfInBounds n (f n)

/-- `V[k] <- f k` for `k` from 0 to `x` (R135); the registers above `x` keep their values. -/
def State.setVUpTo (s : State) (x : Reg) (f : Nat → Byte) : State := { s with v := loadRegs s.v f (x.val + 1) }

/-- The bytes `V[0]` to `V[x]` (R134). -/
def State.vUpTo (s : State) (x : Reg) : List Byte := s.v.toList.take (x.val + 1)

/-- `I <- w` (R14). -/
def State.setI (s : State) (w : Word) : State := { s with i := w }

/-- `DT <- b` (R20). -/
def State.setDt (s : State) (b : Byte) : State := { s with dt := b }

/-- `ST <- b` (R20). -/
def State.setSt (s : State) (b : Byte) : State := { s with st := b }

/-- `RUN <- r` (R23). -/
def State.setRun (s : State) (r : RunState) : State := { s with run := r }

/-- `KEYS <- k`, wholesale (R22). -/
def State.setKeys (s : State) (k : Vector Bool 16) : State := { s with keys := k }

/-- `DISP <- d` (R21). -/
def State.setDisp (s : State) (d : Display) : State := { s with disp := d }

/-- `DIRTY <- b` (R21). -/
def State.setDirty (s : State) (b : Bool) : State := { s with dirty := b }

/-- One more random byte has been drawn (log 2). -/
def State.countDraw (s : State) : State := { s with draws := s.draws + 1 }

/-- The driver's transactions still to come (log 3). -/
def State.setSchedule (s : State) (ts : List Transaction) : State := { s with schedule := ts }

/-! ## The program counter (R18, R94) -/

/-- `pc <- w`. -/
def State.setPc (s : State) (w : Word) : State := { s with pc := w }

/-- The default advance `pc <- pc_cur + 2` (R94). -/
def State.advance (s : State) : State := s.setPc (s.pc + 2)

/-- A skip: `pc <- c ? pc_cur + 4 : pc_cur + 2` (R94). -/
def State.skipIf (s : State) (c : Bool) : State := s.setPc (if c then s.pc + 4 else s.pc + 2)

/-! ## The stack (R15, R16) -/

/-- `push(a)` (R16). -/
def State.push (s : State) (a : Word) : Except Fault State :=
  if h : s.sp.val < 16 then
    .ok { s with stack := s.stack.set s.sp.val a, sp := ⟨s.sp.val + 1, by omega⟩ }
  else .error .stackOverflow

/-- `pop()`: the value and the state after it; the slot keeps the value (R16). -/
def State.pop (s : State) : Except Fault (Word × State) :=
  if h : s.sp.val = 0 then .error .stackUnderflow
  else
    have hs := s.sp.isLt
    .ok (s.stack[s.sp.val - 1], { s with sp := ⟨s.sp.val - 1, by omega⟩ })

/-! ## The display (R21) -/

/-- `DISP[r][c]`. -/
def pixel (d : Display) (r : Fin 32) (c : Fin 64) : Bool := d[r][c]

/-- `DISP[r][c] <- DISP[r][c] ^ 1`. -/
def togglePixel (d : Display) (r : Fin 32) (c : Fin 64) : Display := d.set r (d[r].set c (!pixel d r c))

/-- Every cell 0 (R140). -/
def clearDisplay : Display := Vector.replicate 32 (Vector.replicate 64 false)

/-- The display row of sprite row `row` (R141). -/
def spriteRow (y0 : Byte) (row : Nat) : Fin 32 := ⟨(y0.toNat + row) % 32, Nat.mod_lt _ (by decide)⟩

/-- The display column of sprite column `col` (R141). -/
def spriteCol (x0 : Byte) (col : Nat) : Fin 64 := ⟨(x0.toNat + col) % 64, Nat.mod_lt _ (by decide)⟩

/-- One pixel of a sprite: bit `7 - col` of the row's byte inverts its cell; a cell that was set is a collision (R141). -/
def drawPixel (x0 y0 : Byte) (row : Nat) (bits : Byte) (acc : Display × Bool) (col : Nat) : Display × Bool :=
  if bits.getLsbD (7 - col) then
    (togglePixel acc.1 (spriteRow y0 row) (spriteCol x0 col),
      acc.2 || pixel acc.1 (spriteRow y0 row) (spriteCol x0 col))
  else acc

/-- One row of a sprite, columns 0 to 7 (R141). -/
def drawRow (x0 y0 : Byte) (row : Nat) (bits : Byte) (acc : Display × Bool) : Display × Bool :=
  (List.range 8).foldl (drawPixel x0 y0 row bits) acc

/-- The rows of a sprite from row number `row` on (R141): the display and the collision so far, and then after. -/
def drawSprite (x0 y0 : Byte) : List Byte → Nat → Display × Bool → Display × Bool
  | [], _, acc => acc
  | b :: bs, row, acc => drawSprite x0 y0 bs (row + 1) (drawRow x0 y0 row b acc)

/-! ## The keys (R22) -/

/-- The lowest-numbered pressed key (R157). -/
def lowestKey (keys : Vector Bool 16) : Option (Fin 16) := (List.finRange 16).find? fun k => keys[k]

/-- The latch that a 16-bit value stands for: bit `j` is key `j` (R177). -/
def latchOf (k : Word) : Vector Bool 16 :=
  #v[k.getLsbD 0, k.getLsbD 1, k.getLsbD 2, k.getLsbD 3, k.getLsbD 4, k.getLsbD 5, k.getLsbD 6, k.getLsbD 7,
     k.getLsbD 8, k.getLsbD 9, k.getLsbD 10, k.getLsbD 11, k.getLsbD 12, k.getLsbD 13, k.getLsbD 14, k.getLsbD 15]

/-! ## Outputs (R34) -/

/-- `sound_active = (ST > 0)` (R34, R179). -/
def State.soundActive (s : State) : Bool := 0 < s.st.toNat

end Sys2Proof.Machine
end

