-- ==== Sys2Proof/Machine/Flags.lean ====
section
/-! DEFINITION. Results and flags of the arithmetic: exact on integers, reduced modulo 256 at the end (R121). -/

namespace Sys2Proof.Machine

/-- A flag as the byte written to VF (R12). -/
def flagByte (c : Bool) : Byte := if c then 1 else 0

/-- `(a + b) mod 256` (R111, R116). -/
def addResult (a b : Byte) : Byte := BitVec.ofNat 8 (a.toNat + b.toNat)

/-- Carry: 1 when `a + b > 255` (R116). -/
def carryFlag (a b : Byte) : Byte := flagByte (255 < a.toNat + b.toNat)

/-- `(a - b) mod 256` (R117, R119). -/
def subResult (a b : Byte) : Byte := BitVec.ofInt 8 ((a.toNat : Int) - (b.toNat : Int))

/-- NOT borrow: 1 when `a ≥ b` (R117, R119). -/
def noBorrowFlag (a b : Byte) : Byte := flagByte (b.toNat ≤ a.toNat)

/-- `a >> 1`, bit 7 of the result 0 (R118). -/
def shrResult (a : Byte) : Byte := a >>> 1

/-- The bit a right shift moves out, `a[0]` (R118). -/
def shrFlag (a : Byte) : Byte := flagByte (a.getLsbD 0)

/-- `(a << 1) mod 256`, bit 0 of the result 0 (R120). -/
def shlResult (a : Byte) : Byte := a <<< 1

/-- The bit a left shift moves out, `a[7]` (R120). -/
def shlFlag (a : Byte) : Byte := flagByte (a.getLsbD 7)

end Sys2Proof.Machine
end

