-- ==== Sys2Proof/Machine/Operands.lean ====
section
/-! DEFINITION. The operand forms: register fields, immediates, the `I`-relative address, the shift source, the key number,
the decimal digits. -/

namespace Sys2Proof.Machine

/-- `zext_16(nnn)` (R73). -/
def zext16 (nnn : Addr12) : Word := nnn.setWidth 16

/-- `I & 0x0FFF`, the base of every access through `I` (R14, R55). -/
def State.baseAddr (s : State) : Nat := (s.i &&& 0x0FFF).toNat

/-- The source of `8xy6` and `8xyE`: `V[x]` or `V[y]`, by `SHIFT_SOURCE` (R118, R120). -/
def State.shiftOperand (s : State) (x y : Reg) : Byte :=
  match s.params.shiftSource with
  | .vx => s.getV x
  | .vy => s.getV y

/-- The key tested by `Ex9E` and `ExA1`: the low four bits of `V[x]` (R153; the spec's decision D17). -/
def State.keyNumber (s : State) (x : Reg) : Fin 16 := ((s.getV x).extractLsb' 0 4).toFin

/-- A key number as the byte that `Fx0A` leaves in `V[t]` (R157). -/
def keyCode (k : Fin 16) : Byte := BitVec.ofNat 8 k.val

/-- `FONT_BASE + 5 * V[x]`, the address of the glyph of a byte (R48, R132). -/
def State.glyphAddr (s : State) (x : Reg) : Word := BitVec.ofNat 16 (s.params.fontBase.val + 5 * (s.getV x).toNat)

/-- `(I + V[x]) mod 65536` (R131). -/
def State.indexSum (s : State) (x : Reg) : Word := BitVec.ofNat 16 (s.i.toNat + (s.getV x).toNat)

/-- `zext_16(nnn) + V[0]` (R103). -/
def State.jumpSum (s : State) (nnn : Addr12) : Word := BitVec.ofNat 16 (nnn.toNat + (s.getV 0).toNat)

/-- The decimal digits of a byte, hundreds, tens, ones (R133). -/
def bcdDigits (b : Byte) : List Byte :=
  [BitVec.ofNat 8 (b.toNat / 100), BitVec.ofNat 8 (b.toNat / 10 % 10), BitVec.ofNat 8 (b.toNat % 10)]

end Sys2Proof.Machine
end

