-- ==== Sys2Proof/Machine/Alu.lean ====
section
/-! DEFINITION. Register load, add immediate, register-register ALU (42_alu.md): `6xkk 7xkk 8xy0` to `8xy7`, `8xyE`. -/

namespace Sys2Proof.Machine

/-- `6xkk` (R110). -/
def execLdImm (x : Reg) (kk : Byte) (s : State) : Host.Outcome State Fault Refusal :=
  .next (s.setV x kk).advance

/-- `7xkk` (R111): no flag. -/
def execAddImm (x : Reg) (kk : Byte) (s : State) : Host.Outcome State Fault Refusal :=
  .next (s.setV x (addResult (s.getV x) kk)).advance

/-- `8xy0` (R112). -/
def execLdReg (x y : Reg) (s : State) : Host.Outcome State Fault Refusal :=
  .next (s.setV x (s.getV y)).advance

/-- `8xy1` (R113): VF is not written as a flag (the spec's D13). -/
def execOrReg (x y : Reg) (s : State) : Host.Outcome State Fault Refusal :=
  .next (s.setV x (s.getV x ||| s.getV y)).advance

/-- `8xy2` (R114): VF is not written as a flag (the spec's D13). -/
def execAndReg (x y : Reg) (s : State) : Host.Outcome State Fault Refusal :=
  .next (s.setV x (s.getV x &&& s.getV y)).advance

/-- `8xy3` (R115): VF is not written as a flag (the spec's D13). -/
def execXorReg (x y : Reg) (s : State) : Host.Outcome State Fault Refusal :=
  .next (s.setV x (s.getV x ^^^ s.getV y)).advance

/-- `8xy4` (R116). -/
def execAddReg (x y : Reg) (s : State) : Host.Outcome State Fault Refusal :=
  .next (s.setVFlag x (addResult (s.getV x) (s.getV y)) (carryFlag (s.getV x) (s.getV y))).advance

/-- `8xy5` (R117). -/
def execSubReg (x y : Reg) (s : State) : Host.Outcome State Fault Refusal :=
  .next (s.setVFlag x (subResult (s.getV x) (s.getV y)) (noBorrowFlag (s.getV x) (s.getV y))).advance

/-- `8xy6` (R118). -/
def execShr (x y : Reg) (s : State) : Host.Outcome State Fault Refusal :=
  .next (s.setVFlag x (shrResult (s.shiftOperand x y)) (shrFlag (s.shiftOperand x y))).advance

/-- `8xy7` (R119). -/
def execSubn (x y : Reg) (s : State) : Host.Outcome State Fault Refusal :=
  .next (s.setVFlag x (subResult (s.getV y) (s.getV x)) (noBorrowFlag (s.getV y) (s.getV x))).advance

/-- `8xyE` (R120). -/
def execShl (x y : Reg) (s : State) : Host.Outcome State Fault Refusal :=
  .next (s.setVFlag x (shlResult (s.shiftOperand x y)) (shlFlag (s.shiftOperand x y))).advance

end Sys2Proof.Machine
end

