-- ==== Sys2Proof/Machine/DisplayOps.lean ====
section
/-! DEFINITION. The display instructions (44_display.md): `00E0 Dxyn`. -/

namespace Sys2Proof.Machine

/-- `00E0` (R140). -/
def execCls (s : State) : Host.Outcome State Fault Refusal :=
  .next ((s.setDisp clearDisplay).setDirty true).advance

/-- The display and the collision after the sprite of `Dxyn` is drawn (R141); all operands are read from `s`. -/
def State.drawn (s : State) (x y : Reg) (n : Nibble) : Display × Bool :=
  drawSprite (s.getV x) (s.getV y) (s.readBytes s.baseAddr n.toNat) 0 (s.disp, false)

/-- `Dxyn` (R141). -/
def execDrw (x y : Reg) (n : Nibble) (s : State) : Host.Outcome State Fault Refusal :=
  if pastEnd s.baseAddr n.toNat then raiseFault (.addressOutOfRange 4096)
  else .next (((s.setDisp (s.drawn x y n).1).setV 0xF (flagByte (s.drawn x y n).2)).setDirty true).advance

end Sys2Proof.Machine
end

