-- ==== Sys2Proof/Machine/Flow.lean ====
section
/-! DEFINITION. Control transfer (41_flow.md): `00EE 1nnn 2nnn Bnnn 3xkk 4xkk 5xy0 9xy0`. -/

namespace Sys2Proof.Machine

/-- `00EE` (R100). -/
def execRet (s : State) : Host.Outcome State Fault Refusal :=
  match s.pop with
  | .error f => raiseFault f
  | .ok r => .next (r.2.setPc r.1)

/-- `1nnn` (R101). -/
def execJp (nnn : Addr12) (s : State) : Host.Outcome State Fault Refusal :=
  .next (s.setPc (zext16 nnn))

/-- `2nnn` (R102): the address pushed is that of the instruction after the call. -/
def execCall (nnn : Addr12) (s : State) : Host.Outcome State Fault Refusal :=
  match s.push (s.pc + 2) with
  | .error f => raiseFault f
  | .ok t => .next (t.setPc (zext16 nnn))

/-- `Bnnn` (R103): no wrap to 12 bits and no mask. -/
def execJpV0 (nnn : Addr12) (s : State) : Host.Outcome State Fault Refusal :=
  .next (s.setPc (s.jumpSum nnn))

/-- `3xkk` (R104). -/
def execSeImm (x : Reg) (kk : Byte) (s : State) : Host.Outcome State Fault Refusal :=
  .next (s.skipIf (s.getV x == kk))

/-- `4xkk` (R105). -/
def execSneImm (x : Reg) (kk : Byte) (s : State) : Host.Outcome State Fault Refusal :=
  .next (s.skipIf (s.getV x != kk))

/-- `5xy0` (R106). -/
def execSeReg (x y : Reg) (s : State) : Host.Outcome State Fault Refusal :=
  .next (s.skipIf (s.getV x == s.getV y))

/-- `9xy0` (R107). -/
def execSneReg (x y : Reg) (s : State) : Host.Outcome State Fault Refusal :=
  .next (s.skipIf (s.getV x != s.getV y))

end Sys2Proof.Machine
end

