-- ==== Sys2Proof/Machine/IndexMemory.lean ====
section
/-! DEFINITION. The address register and the memory instructions (43_index_memory.md): `Annn Fx1E Fx29 Fx33 Fx55 Fx65`. -/

namespace Sys2Proof.Machine

/-- `Annn` (R130). -/
def execLdI (nnn : Addr12) (s : State) : Host.Outcome State Fault Refusal :=
  .next (s.setI (zext16 nnn)).advance

/-- `Fx1E` (R131): VF is not written (the spec's D13). -/
def execAddI (x : Reg) (s : State) : Host.Outcome State Fault Refusal :=
  .next (s.setI (s.indexSum x)).advance

/-- `Fx29` (R132): the whole of `V[x]` is used (the spec's D15). -/
def execLdF (x : Reg) (s : State) : Host.Outcome State Fault Refusal :=
  .next (s.setI (s.glyphAddr x)).advance

/-- `Fx33` (R133). -/
def execLdB (x : Reg) (s : State) : Host.Outcome State Fault Refusal :=
  if pastEnd s.baseAddr 3 then raiseFault (.addressOutOfRange 4096)
  else .next (s.writeBytes s.baseAddr (bcdDigits (s.getV x))).advance

/-- `Fx55` (R134): `I` is not changed (the spec's D14). -/
def execLdMemVx (x : Reg) (s : State) : Host.Outcome State Fault Refusal :=
  if pastEnd s.baseAddr (x.val + 1) then raiseFault (.addressOutOfRange 4096)
  else .next (s.writeBytes s.baseAddr (s.vUpTo x)).advance

/-- `Fx65` (R135): `I` is not changed (the spec's D14). -/
def execLdVxMem (x : Reg) (s : State) : Host.Outcome State Fault Refusal :=
  if pastEnd s.baseAddr (x.val + 1) then raiseFault (.addressOutOfRange 4096)
  else .next (s.setVUpTo x fun k => s.memByte (s.baseAddr + k)).advance

end Sys2Proof.Machine
end

