-- ==== Sys2Proof/Machine/TimerKeyRandom.lean ====
section
/-! DEFINITION. Timer access, key tests, random, key wait (45_timer_key_random.md): `Fx07 Fx15 Fx18 Ex9E ExA1 Cxkk Fx0A`
and the key-wait poll that completes `Fx0A`. -/

namespace Sys2Proof.Machine

/-- `Fx07` (R150). -/
def execLdVxDt (x : Reg) (s : State) : Host.Outcome State Fault Refusal :=
  .next (s.setV x s.dt).advance

/-- `Fx15` (R151). -/
def execLdDtVx (x : Reg) (s : State) : Host.Outcome State Fault Refusal :=
  .next (s.setDt (s.getV x)).advance

/-- `Fx18` (R152). -/
def execLdStVx (x : Reg) (s : State) : Host.Outcome State Fault Refusal :=
  .next (s.setSt (s.getV x)).advance

/-- `Ex9E` (R153). -/
def execSkp (x : Reg) (s : State) : Host.Outcome State Fault Refusal :=
  .next (s.skipIf s.keys[s.keyNumber x])

/-- `ExA1` (R154). -/
def execSknp (x : Reg) (s : State) : Host.Outcome State Fault Refusal :=
  .next (s.skipIf (!s.keys[s.keyNumber x]))

/-- `Cxkk` with the input `rnd` (R155). -/
def State.randomInto (s : State) (rnd : Byte) (x : Reg) (kk : Byte) : State :=
  (s.setV x (rnd &&& kk)).countDraw.advance

/-- `Cxkk` (R155): `rnd` is a free value, a fresh one at each execution (log 2). -/
def execRnd (x : Reg) (kk : Byte) (s : State) : Host.Outcome State Fault Refusal :=
  .next (s.randomInto (Config.randomByte s.draws) x kk)

/-- `Fx0A` (R156): the wait begins; the program counter is not advanced and the keys are not looked at. -/
def execLdVxK (x : Reg) (s : State) : Host.Outcome State Fault Refusal :=
  .next (s.setRun (.waitingForKey x))

/-- The key-wait poll (R157): the lowest-numbered pressed key ends the wait; with none pressed nothing changes. -/
def State.keyWaitPoll (s : State) (t : Reg) : State :=
  match lowestKey s.keys with
  | some k => ((s.setV t (keyCode k)).setRun .running).advance
  | none => s

end Sys2Proof.Machine
end

