-- ==== Sys2Proof/Machine/Cycle.lean ====
section
/-! DEFINITION. The `step` transaction (40_step_cycle.md): the key-wait test, fetch, decode, execute. -/

namespace Sys2Proof.Machine

/-- Fetch (R92): the bytes at `PC` and `PC + 1`, each bounds-checked, big-endian, at any parity of `PC`. -/
def State.fetch (s : State) : Except Fault Word :=
  match s.memRead s.pc.toNat with
  | .error f => .error f
  | .ok hi =>
    match s.memRead (s.pc.toNat + 1) with
    | .error f => .error f
    | .ok lo => .ok (wordOfBytes hi lo)

/-- Decode of a fetched word (R78, R93). -/
def decodeFetched (op : Word) : Except Fault Instr :=
  match decodeWord op with
  | some i => .ok i
  | none => .error (.illegalInstruction op)

/-- Fetch and decode, in the order of R95. -/
def State.fetchInstr (s : State) : Except Fault Instr :=
  match s.fetch with
  | .error f => .error f
  | .ok op => decodeFetched op

/-- One `step` transaction (R90, R91): a key-wait poll, or one instruction. -/
def stepTransaction (s : State) : Host.Outcome State Fault Refusal :=
  match s.run with
  | .waitingForKey t => .next (s.keyWaitPoll t)
  | .running =>
    match s.fetchInstr with
    | .error f => raiseFault f
    | .ok i => exec i s

end Sys2Proof.Machine
end

