-- ==== Sys2Proof/Machine/HostMoves.lean ====
section
/-! DEFINITION. The driver's transactions other than `step` (R6): `reset`, `load`, `set_keys`, `tick`, `clear_dirty`. -/

namespace Sys2Proof.Machine

/-- One count down, with floor 0 (R175). -/
def countDown (b : Byte) : Byte := if 0 < b.toNat then b - 1 else 0

/-- `tick` (R175): both timers, nothing else. -/
def State.tick (s : State) : State := (s.setDt (countDown s.dt)).setSt (countDown s.st)

/-- `set_keys(k)` (R177): all sixteen bits are replaced. -/
def State.latch (s : State) (k : Word) : State := s.setKeys (latchOf k)

/-- `clear_dirty` (R178). -/
def State.clearDirty (s : State) : State := s.setDirty false

/-- `reset` (R190, R192): every piece of the machine's state at its reset value. The parameters are the machine's own, and
the model's two fields go on: later draws stay fresh (log 2) and the driver's scheduled transactions still come (log 3). -/
def State.resetMove (s : State) : State :=
  { State.resetWith s.params with draws := s.draws, schedule := s.schedule }

/-- `load(bytes)` (R50, R51): the bytes from 0x200 on and nothing else, or `ProgramTooLarge` and nothing at all. -/
def State.load (s : State) (bytes : List Byte) : Except Fault State :=
  if 3584 < bytes.length then .error (.programTooLarge bytes.length) else .ok (s.writeBytes 0x200 bytes)

/-- One transaction of the driver. -/
def hostMove (m : HostMove) (s : State) : Host.Outcome State Fault Refusal :=
  match m with
  | .reset => .next s.resetMove
  | .load bytes =>
    match s.load bytes with
    | .error f => raiseFault f
    | .ok t => .next t
  | .setKeys k => .next (s.latch k)
  | .tick => .next s.tick
  | .clearDirty => .next s.clearDirty

end Sys2Proof.Machine
end

