-- ==== Sys2Proof/Machine/Driver.lean ====
section
/-! DEFINITION. The machine as its driver sees it (R6, R96, R170): a sequence of transactions in any order, each answered by
`ok` or by a fault that leaves the state as it was and does not end the sequence. -/

namespace Sys2Proof.Machine

/-- What a transaction answers. -/
def transact (t : Transaction) (s : State) : Host.Outcome State Fault Refusal :=
  match t with
  | .step => stepTransaction s
  | .host m => hostMove m s

/-- The state the machine is in after a transaction that answered `o` from `s`: after a fault, `s` itself (R96). -/
def stateAfter (s : State) (o : Host.Outcome State Fault Refusal) : State :=
  match o with
  | .next t => t
  | .fault _ => s
  | .refused _ => s

/-- The fault a transaction returned, if it did. -/
def faultOf (o : Host.Outcome State Fault Refusal) : Option Fault :=
  match o with
  | .next _ => none
  | .fault f => some f
  | .refused _ => none

/-- The code a transaction returns: 0 for no fault, else the fault's (R165, R167; the spec's decision D10). -/
def responseCode (o : Host.Outcome State Fault Refusal) : Nat :=
  match faultOf o with
  | none => 0
  | some f => f.code

/-- The state after a sequence of transactions, and the answers in order (R6, R170). -/
def runTransactions : List Transaction → State → State × List (Option Fault)
  | [], s => (s, [])
  | t :: ts, s =>
    let r := runTransactions ts (stateAfter s (transact t s))
    (r.1, faultOf (transact t s) :: r.2)

end Sys2Proof.Machine
end

