-- ==== Sys2Proof/Machine/Step.lean ====
section
/-! DEFINITION. One step of the machine: one transaction, in the order that the state's `schedule` holds. -/

namespace Sys2Proof.Machine

/-- One transaction (R6). The spec leaves the order of transactions to the driver (R6, R176; its decision D25), and the host may
issue any of its own between two steps (R196). DESIGN CHOICE (log 3): the driver's next transactions stand in `schedule`, in any
order and any number, `step` among them, and the oldest is performed. Once they are used up, as they are at reset, every
further transaction is a `step` (R90). -/
def step (s : State) : Host.Outcome State Fault Refusal :=
  match s.schedule with
  | [] => stepTransaction s
  | t :: ts => transact t (s.setSchedule ts)

/-- `s` with the word `w` of `nbits` bits where the next step fetches: stored at `PC`, high byte first. So that the next
step does fetch, the run state is running, nothing is scheduled, and a `PC` that no fetch accepts is set
to 0x200 (log 7). -/
def State.withFetchWord (s : State) (nbits w : Nat) : State :=
  let r := (s.setRun .running).setSchedule []
  let q := if r.pc.toNat ≤ 4094 then r else r.setPc 0x200
  q.writeBytes q.pc.toNat (bytesOfWord (tableWord nbits w))

end Sys2Proof.Machine
end

