-- ==== Sys2Proof/Safety.lean ====
section
/-! DEFINITION. The terms that claims are stated in: the invariant of the machine, what an instruction leaves unchanged. -/

namespace Sys2Proof.Machine

/-- Memory is in its canonical form: the model's own form, no rule of the spec (log 5). -/
abbrev State.memCanonical (s : State) : Prop := Memory.wf s.params s.mem

/-- `PC` is at most 0x10FE (R19), and at most 4094, the address of a fetched `Fx0A`, during a key wait (R156; the
spec's decision D18, log 18). -/
abbrev State.pcBounded (s : State) : Prop := s.pc.toNat ≤ 0x10FE ∧ (s.run ≠ .running → s.pc.toNat ≤ 4094)

/-- Every stack slot holds at most 4096, the largest value a call pushes (R102; the spec's decision D5, log 20). -/
abbrev State.stackBounded (s : State) : Prop := ∀ j : Fin 16, s.stack[j].toNat ≤ 4096

/-- The invariant of the machine. It holds at reset and every step keeps it. -/
abbrev State.Inv (s : State) : Prop := s.memCanonical ∧ s.pcBounded ∧ s.stackBounded

/-- Every general register but those of `ds` is the same. -/
abbrev regsSameExcept (s t : State) (ds : List Reg) : Prop := ∀ r, r ∉ ds → t.getV r = s.getV r

/-- Every byte of memory reads the same. -/
def memSame (s t : State) : Prop := ∀ a, t.memByte a = s.memByte a

/-- Every byte of memory outside the `count` bytes from `b` reads the same. -/
def memSameOutside (s t : State) (b count : Nat) : Prop := ∀ a, a < b ∨ b + count ≤ a → t.memByte a = s.memByte a

/-- The next `step` transaction cannot fetch (R92). -/
def nextFetchFaults (t : State) : Prop := t.run = .running → ∃ a, stepTransaction t = .fault (.addressOutOfRange a)

/-- The sprite of `Dxyn` has a 1 bit on display cell `(r, c)`: a set cell of `S` in R142. -/
def spriteCovers (s : State) (x y : Reg) (n : Nibble) (r : Fin 32) (c : Fin 64) : Prop :=
  ∃ row col : Nat, row < n.toNat ∧ col < 8 ∧ (s.memByte (s.baseAddr + row)).getLsbD (7 - col) = true ∧
    r.val = ((s.getV y).toNat + row) % 32 ∧ c.val = ((s.getV x).toNat + col) % 64

/-- `n` ticks (R175). -/
def ticks : Nat → State → State
  | 0, s => s
  | n + 1, s => ticks n s.tick

end Sys2Proof.Machine
end

