-- ==== Sys2Proof/Certificates/Slice0/Obligations.lean ====
section
/-! DEFINITION. The statements for the provers. Each docstring names the rule of spec/ or the section it rests on. Where the
spec marks a point as its own decision, the docstring names the decision and the statement's basis is 'derived'. -/

open Sys2Proof Sys2Proof.Machine

/-! ## Encoding -/

/-- Decoding the bytes of any instruction gives it back, with the bytes after it left (30_encoding.md sections 2 to 4). -/
def Obligations.DecodeOfEncodeIsInstruction : Prop :=
  ∀ (i : Instr) (rest : List Byte), decode (encodeBytes i ++ rest) = .ok (i, rest)

/-- Every word that decodes is the encoding of what it decodes to: no bit of a legal word is dropped, the unused `y` of the
shifts included (30_encoding.md sections 3 and 4). -/
def Obligations.EncodeOfDecodeIsWord : Prop :=
  ∀ (op : Word) (i : Instr), decodeWord op = some i → encode i = op

/-- R93: decoding answers the one row of R75 that the word matches, or `IllegalInstruction` with the word when there is none;
and it depends on the word alone. -/
def Obligations.DecodeReturnsTheMatchingRow : Prop :=
  ∀ op : Word,
    (∀ i, decodeFetched op = .ok i →
      ∀ k (h : k < opcodeMap.length), opcodeMap[k].selects op = true ↔ k = rowNumber i) ∧
    (∀ f, decodeFetched op = .error f → f = .illegalInstruction op) ∧
    ((∃ i, decodeFetched op = .ok i) ↔ ∃ r ∈ opcodeMap, r.selects op = true)

/-- A few words, written out from R75, decode to what they stand for, and a few near misses to nothing (R78). -/
def Obligations.SampleWordsDecode : Prop :=
  decodeTableWord 16 0x00E0 = some .cls ∧ decodeTableWord 16 0x220A = some (.call 0x20A) ∧
  decodeTableWord 16 0x3A3C = some (.seImm 0xA 0x3C) ∧ decodeTableWord 16 0x8AB7 = some (.subn 0xA 0xB) ∧
  decodeTableWord 16 0xA123 = some (.ldI 0x123) ∧ decodeTableWord 16 0xD125 = some (.drw 1 2 5) ∧
  decodeTableWord 16 0xE7A1 = some (.sknp 7) ∧ decodeTableWord 16 0xF265 = some (.ldVxMem 2) ∧
  decodeTableWord 16 0x5121 = none ∧ decodeTableWord 16 0x8018 = none ∧ decodeTableWord 16 0x0000 = none ∧
  decodeTableWord 16 0xF066 = none

/-! ## The step -/

/-- A `step` transaction is a key-wait poll in the key wait; else fetch, then decode, then the instruction, and the first
fault of the three ends it (40_step_cycle.md section 1). The model's `step` is that transaction when nothing is scheduled, and
else the scheduled transaction that comes first, a `step` or another one (the model's choice, log 3). -/
def Obligations.StepRunsDecodedInstruction : Prop :=
  (∀ s : State, s.schedule = [] →
    (∀ t, s.run = .waitingForKey t → step s = .next (s.keyWaitPoll t)) ∧
    (s.run = .running →
      (∀ f, s.fetch = .error f → step s = .fault f) ∧
      (∀ op, s.fetch = .ok op → decodeWord op = none → step s = .fault (.illegalInstruction op)) ∧
      (∀ op i, s.fetch = .ok op → decodeWord op = some i → step s = exec i s))) ∧
  (∀ (s : State) (ts : List Transaction), s.schedule = .step :: ts →
    (∀ t, s.run = .waitingForKey t → step s = .next ({ s with schedule := ts }.keyWaitPoll t)) ∧
    (s.run = .running →
      (∀ f, s.fetch = .error f → step s = .fault f) ∧
      (∀ op, s.fetch = .ok op → decodeWord op = none → step s = .fault (.illegalInstruction op)) ∧
      (∀ op i, s.fetch = .ok op → decodeWord op = some i → step s = exec i { s with schedule := ts }))) ∧
  ∀ (s : State) (m : HostMove) (ts : List Transaction), s.schedule = .host m :: ts →
    step s = hostMove m { s with schedule := ts }

/-- THE MODEL'S CHOICE (log 3), for 00_scope.md section 5 and the spec's decision D25: the scheduled transactions are performed
one by one, oldest first, each by one step of its own, exactly as the driver's own sequence of them is. First for the
transactions of the driver alone, which none but a `load` too long can fault; then for any sequence at all, with `step` between
them anywhere and more scheduled after them, as long as none faults; and the first that faults ends the run with its fault. -/
def Obligations.HostMovesRunInOrder : Prop :=
  (∀ (ms : List HostMove) (s : State), s.schedule = [] → (∀ bytes, .load bytes ∈ ms → bytes.length ≤ 3584) →
    Sys2Proof.core.run ms.length { s with schedule := ms.map .host } = .next (runTransactions (ms.map .host) s).1) ∧
  (∀ (ts rest : List Transaction) (s : State), (∀ a ∈ (runTransactions ts s).2, a = none) →
    Sys2Proof.core.run ts.length { s with schedule := ts ++ rest } =
      .next { (runTransactions ts s).1 with schedule := rest }) ∧
  ∀ (ts rest : List Transaction) (a : Transaction) (f : Fault) (s : State), (∀ b ∈ (runTransactions ts s).2, b = none) →
    transact a (runTransactions ts s).1 = .fault f →
    Sys2Proof.core.run (ts.length + 1) { s with schedule := ts ++ a :: rest } = .fault f

/-- The fetch reads the bytes at `PC` and `PC + 1`, the first in bits 15 to 8, at any parity of `PC`; it fails exactly when
`PC > 4094`, with payload 4096 for `PC = 4095` and else `PC` (40_step_cycle.md section 1, Fetch; the kind of the fault is the
spec's decision D27, the missing alignment check its D9). -/
def Obligations.FetchIsBigEndianAndBounded : Prop :=
  ∀ s : State,
    (s.pc.toNat ≤ 4094 → s.fetch = .ok (s.memByte s.pc.toNat ++ s.memByte (s.pc.toNat + 1))) ∧
    (s.pc.toNat = 4095 → s.fetch = .error (.addressOutOfRange 4096)) ∧
    (4096 ≤ s.pc.toNat → s.fetch = .error (.addressOutOfRange s.pc.toNat))

/-- A fetched word that no row of the opcode map matches raises `IllegalInstruction` with that word (30_encoding.md section
5). -/
def Obligations.UnmatchedWordFaults : Prop :=
  ∀ (s : State) (op : Word), s.schedule = [] → s.run = .running → s.pc.toNat ≤ 4094 →
    op = s.memByte s.pc.toNat ++ s.memByte (s.pc.toNat + 1) → legalWord op = false →
    step s = .fault (.illegalInstruction op)

/-! ## Control transfer -/

/-- R101: `1nnn` puts `nnn` in `PC` and changes nothing else; to its own address it changes nothing at all; `nnn = 0xFFF` makes
the next fetch fault. -/
def Obligations.JumpGoesToTarget : Prop :=
  ∀ (nnn : Addr12) (s : State), decodeWord (formatA 0x1 nnn) = some (.jp nnn) ∧ ∃ t, exec (.jp nnn) s = .next t ∧
    t = { s with pc := t.pc } ∧ t.pc.toNat = nnn.toNat ∧
    (s.pc.toNat = nnn.toNat → t = s) ∧ (nnn = 0xFFF → nextFetchFaults t)

/-- R103: `Bnnn` puts `nnn + V[0]` in `PC`, without wrap or mask, and changes nothing else; a sum above 4094 makes the next
fetch fault. -/
def Obligations.JumpV0AddsOffset : Prop :=
  ∀ (nnn : Addr12) (s : State), decodeWord (formatA 0xB nnn) = some (.jpV0 nnn) ∧ ∃ t, exec (.jpV0 nnn) s = .next t ∧
    t = { s with pc := t.pc } ∧ t.pc.toNat = nnn.toNat + (s.getV 0).toNat ∧
    (4094 < nnn.toNat + (s.getV 0).toNat → nextFetchFaults t)

/-- R100: `00EE` with `SP = 0` raises `StackUnderflow`; else it takes `PC` from the slot below `SP`, lowers `SP` by one, and
changes nothing else: the slot keeps its value. A popped value above 4094 faults at the next fetch, not here. -/
def Obligations.ReturnPopsAddress : Prop :=
  ∀ s : State,
    (∀ op, decodeWord op = some .ret ↔ op = 0x00EE) ∧
    (s.sp.val = 0 → exec .ret s = .fault .stackUnderflow ∧ stateAfter s (exec .ret s) = s) ∧
    (∀ j : Fin 16, s.sp.val = j.val + 1 → ∃ t, exec .ret s = .next t ∧
      t = { s with sp := t.sp, pc := t.pc } ∧ t.sp.val = j.val ∧ t.pc = s.stack[j] ∧
      (4094 < t.pc.toNat → nextFetchFaults t))

/-- `2nnn` with `SP = 16` raises `StackOverflow`; else it puts `PC + 2` in the slot `SP`, raises `SP` by one, jumps, and
changes nothing else, the other slots included (41_flow.md; the value pushed is the spec's decision D5). -/
def Obligations.CallPushesReturnAddress : Prop :=
  ∀ (nnn : Addr12) (s : State),
    (s.sp.val = 16 → exec (.call nnn) s = .fault .stackOverflow) ∧
    (∀ j : Fin 16, s.sp.val = j.val → ∃ t, exec (.call nnn) s = .next t ∧
      t = { s with sp := t.sp, pc := t.pc, stack := t.stack } ∧ t.sp.val = j.val + 1 ∧ t.pc.toNat = nnn.toNat ∧
      t.stack[j] = s.pc + 2 ∧ ∀ k : Fin 16, k ≠ j → t.stack[k] = s.stack[k])

/-- A call with room on the stack, then a return, resumes at the instruction after the call with the same `SP`; only the slot
above differs (10_state.md section 4, E2 of 95_test_vectors.md; decision D5). -/
def Obligations.CallThenReturnResumes : Prop :=
  ∀ (nnn : Addr12) (s : State) (j : Fin 16), s.sp.val = j.val →
    ∃ t u, exec (.call nnn) s = .next t ∧ exec .ret t = .next u ∧
      u.pc = s.pc + 2 ∧ u = { s with pc := u.pc, stack := u.stack } ∧ u.stack[j] = s.pc + 2 ∧
      ∀ k : Fin 16, k ≠ j → u.stack[k] = s.stack[k]

/-- R104 and R105: `3xkk` skips when `V[x] = kk` and `4xkk` when it differs; nothing but `PC` changes; a taken skip at 4094
gives 4098, where the next fetch faults. -/
def Obligations.ImmediateSkips : Prop :=
  ∀ (x : Reg) (kk : Byte) (s : State),
    decodeWord (formatXK 0x3 x kk) = some (.seImm x kk) ∧ decodeWord (formatXK 0x4 x kk) = some (.sneImm x kk) ∧
    (∃ t, exec (.seImm x kk) s = .next t ∧ t = { s with pc := t.pc } ∧
      t.pc = (if s.getV x = kk then s.pc + 4 else s.pc + 2) ∧
      (s.pc.toNat = 4094 → s.getV x = kk → t.pc.toNat = 4098 ∧ nextFetchFaults t)) ∧
    (∃ t, exec (.sneImm x kk) s = .next t ∧ t = { s with pc := t.pc } ∧
      t.pc = (if s.getV x ≠ kk then s.pc + 4 else s.pc + 2))

/-- R106 and R107: `5xy0` skips when `V[x] = V[y]` and `9xy0` when they differ; nothing but `PC` changes; with `x = y` the
first always skips and the second never. -/
def Obligations.RegisterSkips : Prop :=
  ∀ (x y : Reg) (s : State),
    (∀ n, decodeWord (formatXYN 0x5 x y n) = if n = 0 then some (.seReg x y) else none) ∧
    (∀ n, decodeWord (formatXYN 0x9 x y n) = if n = 0 then some (.sneReg x y) else none) ∧
    (∃ t, exec (.seReg x y) s = .next t ∧ t = { s with pc := t.pc } ∧
      t.pc = (if s.getV x = s.getV y then s.pc + 4 else s.pc + 2) ∧ (x = y → t.pc = s.pc + 4)) ∧
    (∃ t, exec (.sneReg x y) s = .next t ∧ t = { s with pc := t.pc } ∧
      t.pc = (if s.getV x ≠ s.getV y then s.pc + 4 else s.pc + 2) ∧ (x = y → t.pc = s.pc + 2))

/-- Frame of the flow family and of the key skips (41_flow.md, Common to the family): a next state differs in `PC`, and for the
call and the return in `SP` and the slots; no register, no byte of memory, `I`, display, timer or latch differs, and a return
writes no slot. -/
def Obligations.ControlTransferFrame : Prop :=
  ∀ (i : Instr) (s t : State), exec i s = .next t →
    ((∃ nnn, i = .jp nnn ∨ i = .jpV0 nnn) ∨ (∃ x kk, i = .seImm x kk ∨ i = .sneImm x kk) ∨
      (∃ x y, i = .seReg x y ∨ i = .sneReg x y) ∨ (∃ x, i = .skp x ∨ i = .sknp x) →
        t = { s with pc := t.pc } ∧ regsSameExcept s t [] ∧ memSame s t) ∧
    (i = .ret → t = { s with pc := t.pc, sp := t.sp } ∧ regsSameExcept s t [] ∧ memSame s t) ∧
    (∀ nnn, i = .call nnn → t = { s with pc := t.pc, sp := t.sp, stack := t.stack } ∧ regsSameExcept s t [] ∧ memSame s t)

/-! ## Register load and the ALU -/

/-- `6xkk` puts `kk` in `V[x]`, `8xy0` copies `V[y]` there; each advances and sets no flag: VF changes only if it is the
destination (42_alu.md; that `8xy0` does not write VF is the spec's decision D13, log 13). -/
def Obligations.LoadAndMove : Prop :=
  ∀ (x y : Reg) (kk : Byte) (s : State),
    decodeWord (formatXK 0x6 x kk) = some (.ldImm x kk) ∧ decodeWord (formatXYN 0x8 x y 0) = some (.ldReg x y) ∧
    (∃ t, exec (.ldImm x kk) s = .next t ∧ t.getV x = kk ∧ t.pc = s.pc + 2 ∧ regsSameExcept s t [x] ∧
      t = { s with v := t.v, pc := t.pc }) ∧
    (∃ t, exec (.ldReg x y) s = .next t ∧ t.getV x = s.getV y ∧ t.pc = s.pc + 2 ∧ regsSameExcept s t [x] ∧
      t = { s with v := t.v, pc := t.pc })

/-- R111: `7xkk` adds modulo 256, never faults, and leaves VF alone unless it is the destination; `kk = 0` changes only
`PC`. -/
def Obligations.AddImmediateWraps : Prop :=
  ∀ (x : Reg) (kk : Byte) (s : State), decodeWord (formatXK 0x7 x kk) = some (.addImm x kk) ∧
    ∃ t, exec (.addImm x kk) s = .next t ∧
    (t.getV x).toNat = ((s.getV x).toNat + kk.toNat) % 256 ∧ t.pc = s.pc + 2 ∧ regsSameExcept s t [x] ∧
    t = { s with v := t.v, pc := t.pc } ∧ (kk = 0 → t = { s with pc := t.pc })

/-- `8xy1`, `8xy2`, `8xy3`: each bit of `V[x]` is the or, and, exclusive or of the operands' bits, and VF is not written as a
flag (42_alu.md; that VF stays is the spec's decision D13). -/
def Obligations.BitwiseOperations : Prop :=
  ∀ (x y : Reg) (s : State),
    (∃ t, exec (.orReg x y) s = .next t ∧ (∀ k, (t.getV x).getLsbD k = ((s.getV x).getLsbD k || (s.getV y).getLsbD k)) ∧
      t.pc = s.pc + 2 ∧ regsSameExcept s t [x] ∧ t = { s with v := t.v, pc := t.pc }) ∧
    (∃ t, exec (.andReg x y) s = .next t ∧ (∀ k, (t.getV x).getLsbD k = ((s.getV x).getLsbD k && (s.getV y).getLsbD k)) ∧
      t.pc = s.pc + 2 ∧ regsSameExcept s t [x] ∧ t = { s with v := t.v, pc := t.pc }) ∧
    (∃ t, exec (.xorReg x y) s = .next t ∧ (∀ k, (t.getV x).getLsbD k = ((s.getV x).getLsbD k ^^ (s.getV y).getLsbD k)) ∧
      t.pc = s.pc + 2 ∧ regsSameExcept s t [x] ∧ t = { s with v := t.v, pc := t.pc })

/-- `8xy4`: the sum modulo 256 in `V[x]`, then the carry in VF, which wins when `x` is 0xF; operands are read first
(42_alu.md; the order is the spec's decision D11). -/
def Obligations.AddRegistersSetsCarry : Prop :=
  ∀ (x y : Reg) (s : State), ∃ t, exec (.addReg x y) s = .next t ∧
    (x ≠ 0xF → (t.getV x).toNat = ((s.getV x).toNat + (s.getV y).toNat) % 256) ∧
    t.getV 0xF = (if (s.getV x).toNat + (s.getV y).toNat > 255 then 1 else 0) ∧
    t.pc = s.pc + 2 ∧ regsSameExcept s t [x, 0xF] ∧ t = { s with v := t.v, pc := t.pc }

/-- `8xy5` and `8xy7`: the difference modulo 256 in `V[x]`, then 1 in VF when no borrow was needed, equality included, which
wins when `x` is 0xF (42_alu.md; operand order and flag are the spec's decision D12, the order of writes its D11). -/
def Obligations.SubtractionsSetNotBorrow : Prop :=
  ∀ (x y : Reg) (s : State),
    (∃ t, exec (.subReg x y) s = .next t ∧
      (x ≠ 0xF → (t.getV x).toNat = ((s.getV x).toNat + 256 - (s.getV y).toNat) % 256) ∧
      t.getV 0xF = (if (s.getV x).toNat ≥ (s.getV y).toNat then 1 else 0) ∧
      t.pc = s.pc + 2 ∧ regsSameExcept s t [x, 0xF] ∧ t = { s with v := t.v, pc := t.pc }) ∧
    (∃ t, exec (.subn x y) s = .next t ∧
      (x ≠ 0xF → (t.getV x).toNat = ((s.getV y).toNat + 256 - (s.getV x).toNat) % 256) ∧
      t.getV 0xF = (if (s.getV y).toNat ≥ (s.getV x).toNat then 1 else 0) ∧
      t.pc = s.pc + 2 ∧ regsSameExcept s t [x, 0xF] ∧ t = { s with v := t.v, pc := t.pc })

/-- `8xy6` and `8xyE`: the source, `V[x]` or `V[y]` by the parameter `SHIFT_SOURCE` (the spec's decision D4), shifted by one
place into `V[x]`, then the bit shifted out in VF, which wins when `x` is 0xF (42_alu.md; D11). -/
def Obligations.ShiftsMoveOneBitOut : Prop :=
  ∀ (x y : Reg) (s : State) (src : Byte),
    src = (if s.params.shiftSource = .vy then s.getV y else s.getV x) →
    (∃ t, exec (.shr x y) s = .next t ∧
      (x ≠ 0xF → (t.getV x).toNat = src.toNat / 2) ∧ (t.getV 0xF).toNat = src.toNat % 2 ∧
      t.pc = s.pc + 2 ∧ regsSameExcept s t [x, 0xF] ∧ t = { s with v := t.v, pc := t.pc }) ∧
    (∃ t, exec (.shl x y) s = .next t ∧
      (x ≠ 0xF → (t.getV x).toNat = src.toNat * 2 % 256) ∧ (t.getV 0xF).toNat = src.toNat / 128 ∧
      t.pc = s.pc + 2 ∧ regsSameExcept s t [x, 0xF] ∧ t = { s with v := t.v, pc := t.pc })

/-! ## The address register and memory -/

/-- R130: `Annn` puts `nnn` in `I`, advances and changes nothing else. -/
def Obligations.LoadIndex : Prop :=
  ∀ (nnn : Addr12) (s : State), decodeWord (formatA 0xA nnn) = some (.ldI nnn) ∧ ∃ t, exec (.ldI nnn) s = .next t ∧
    t.i.toNat = nnn.toNat ∧ t.pc = s.pc + 2 ∧ t = { s with i := t.i, pc := t.pc }

/-- `Fx1E` adds `V[x]` to `I` modulo 65536 and changes neither a register nor VF (43_index_memory.md; that VF stays is the
spec's decision D13). -/
def Obligations.AddToIndexWraps : Prop :=
  ∀ (x : Reg) (s : State), ∃ t, exec (.addI x) s = .next t ∧
    t.i.toNat = (s.i.toNat + (s.getV x).toNat) % 65536 ∧ t.pc = s.pc + 2 ∧ t = { s with i := t.i, pc := t.pc }

/-- `Fx29` puts `FONT_BASE + 5 * V[x]` in `I`, and for `V[x]` below 16 memory at reset holds the glyph's five bytes there
(43_index_memory.md, 20_memory.md section 3; that the whole byte is used is the spec's decision D15; the glyph bytes, which
`ResetStateValues` writes out, its D3, log 4). -/
def Obligations.GlyphAddressPointsAtGlyph : Prop :=
  ∀ (x : Reg) (s : State), ∃ t, exec (.ldF x) s = .next t ∧
    t.i.toNat = s.params.fontBase.val + 5 * (s.getV x).toNat ∧ t.pc = s.pc + 2 ∧ t = { s with i := t.i, pc := t.pc } ∧
    ∀ row, (s.getV x).toNat < 16 → row < 5 →
      (State.resetWith s.params).memByte (t.i.toNat + row) = fontBytes.getD (5 * (s.getV x).toNat + row) 0

/-- `Fx33` faults with `AddressOutOfRange(4096)` when `(I & 0xFFF) + 2` is above 4095; else it completes: it stores the
hundreds, tens and ones of `V[x]` at the base, one above and two above, advances, and changes nothing else, every other byte
included (43_index_memory.md; the digit order is the spec's decision D16, the bound its D6). -/
def Obligations.StoreBcdWritesDigits : Prop :=
  ∀ (x : Reg) (s : State),
    (s.i.toNat % 4096 + 2 > 4095 → exec (.ldB x) s = .fault (.addressOutOfRange 4096)) ∧
    (s.i.toNat % 4096 + 2 ≤ 4095 → ∃ t, exec (.ldB x) s = .next t ∧
      (t.memByte (s.i.toNat % 4096)).toNat = (s.getV x).toNat / 100 ∧
      (t.memByte (s.i.toNat % 4096 + 1)).toNat = (s.getV x).toNat / 10 % 10 ∧
      (t.memByte (s.i.toNat % 4096 + 2)).toNat = (s.getV x).toNat % 10 ∧ memSameOutside s t s.baseAddr 3 ∧
      t.pc = s.pc + 2 ∧ t = { s with mem := t.mem, pc := t.pc })

/-- `Fx55` faults with `AddressOutOfRange(4096)` when `(I & 0xFFF) + x` is above 4095; else it stores `V[0]` to `V[x]` at
ascending addresses from the base and leaves `I` alone (43_index_memory.md; the spec's decisions D6, D14). -/
def Obligations.StoreRegistersWritesAscending : Prop :=
  ∀ (x : Reg) (s : State),
    (s.i.toNat % 4096 + x.val > 4095 → exec (.ldMemVx x) s = .fault (.addressOutOfRange 4096)) ∧
    (s.i.toNat % 4096 + x.val ≤ 4095 → ∃ t, exec (.ldMemVx x) s = .next t ∧
      (∀ k : Reg, k ≤ x → t.memByte (s.i.toNat % 4096 + k.val) = s.getV k) ∧
      t.pc = s.pc + 2 ∧ t = { s with mem := t.mem, pc := t.pc })

/-- `Fx65` faults with `AddressOutOfRange(4096)` when `(I & 0xFFF) + x` is above 4095; else it loads `V[0]` to `V[x]` from
ascending addresses from the base; the registers above `x`, `I` and all of memory keep their values (43_index_memory.md; the
spec's decisions D6, D14). -/
def Obligations.LoadRegistersReadsAscending : Prop :=
  ∀ (x : Reg) (s : State),
    (s.i.toNat % 4096 + x.val > 4095 → exec (.ldVxMem x) s = .fault (.addressOutOfRange 4096)) ∧
    (s.i.toNat % 4096 + x.val ≤ 4095 → ∃ t, exec (.ldVxMem x) s = .next t ∧
      (∀ k : Reg, k ≤ x → t.getV k = s.memByte (s.i.toNat % 4096 + k.val)) ∧
      (∀ k : Reg, x < k → t.getV k = s.getV k) ∧ memSame s t ∧
      t.pc = s.pc + 2 ∧ t = { s with v := t.v, pc := t.pc })

/-- Frame of the instructions that store nothing and neither draw nor transfer control: `PC` goes on by two, and there change
only the destination `V[x]`, with VF for the five that set a flag, or `I`, or one timer; no byte of memory, display cell, stack
slot or latch bit (42_alu.md, Common to the family; 43_index_memory.md; 45_timer_key_random.md). -/
def Obligations.NonStoringInstructionFrame : Prop :=
  ∀ (i : Instr) (nnn : Addr12) (x y : Reg) (kk : Byte) (s t : State), exec i s = .next t →
    (i ∈ [.ldImm x kk, .addImm x kk, .ldReg x y, .orReg x y, .andReg x y, .xorReg x y, .ldVxDt x] →
      regsSameExcept s t [x] ∧ memSame s t ∧ t = { s with v := t.v, pc := s.pc + 2 }) ∧
    (i ∈ [.addReg x y, .subReg x y, .shr x y, .subn x y, .shl x y] →
      regsSameExcept s t [x, 0xF] ∧ memSame s t ∧ t = { s with v := t.v, pc := s.pc + 2 }) ∧
    (i ∈ [.ldI nnn, .addI x, .ldF x] → regsSameExcept s t [] ∧ memSame s t ∧ t = { s with i := t.i, pc := s.pc + 2 }) ∧
    (i = .ldDtVx x → regsSameExcept s t [] ∧ memSame s t ∧ t = { s with dt := t.dt, pc := s.pc + 2 }) ∧
    (i = .ldStVx x → regsSameExcept s t [] ∧ memSame s t ∧ t = { s with st := t.st, pc := s.pc + 2 })

/-- Frame of the storing instructions: every byte outside the three bytes of `Fx33`, and outside the `x + 1` bytes of `Fx55`,
from the base address reads as before, and nothing but memory and `PC` changes (20_memory.md section 1, 43_index_memory.md). -/
def Obligations.StoringInstructionFrame : Prop :=
  ∀ (x : Reg) (s t : State),
    (exec (.ldB x) s = .next t → memSameOutside s t s.baseAddr 3 ∧ regsSameExcept s t [] ∧
      t = { s with mem := t.mem, pc := s.pc + 2 }) ∧
    (exec (.ldMemVx x) s = .next t → memSameOutside s t s.baseAddr (x.val + 1) ∧ regsSameExcept s t [] ∧
      t = { s with mem := t.mem, pc := s.pc + 2 })

/-- Registers stored by `Fx55` come back by `Fx65` through the same `I`, whatever the registers hold in between
(43_index_memory.md, 20_memory.md section 9). -/
def Obligations.StoreThenLoadRestoresRegisters : Prop :=
  ∀ (x : Reg) (s t : State) (w : Vector Byte 16), exec (.ldMemVx x) s = .next t →
    ∃ u, exec (.ldVxMem x) { t with v := w } = .next u ∧
      (∀ k : Reg, k ≤ x → u.getV k = s.getV k) ∧ (∀ k : Reg, x < k → u.getV k = w[k])

/-- A stored pair of registers is the very next instruction word when `PC` comes to point at it (20_memory.md section 9,
coherence of fetch with stores, which the spec derives from R40 and R60). -/
def Obligations.StoredBytesAreFetchedNext : Prop :=
  ∀ (x : Reg) (s t : State) (j k : Reg), exec (.ldMemVx x) s = .next t → k.val = j.val + 1 → k ≤ x →
    t.pc.toNat = s.baseAddr + j.val → t.fetch = .ok (s.getV j ++ s.getV k)

/-- Stored bytes are what their addresses read, and every other address reads as before, in every state (20_memory.md
sections 8 and 9). -/
def Obligations.BytesReadAfterWrite : Prop :=
  ∀ (s : State) (a c : Nat) (bs : List Byte),
    (s.writeBytes a bs).memByte c = if a ≤ c ∧ c < a + bs.length then bs.getD (c - a) 0 else s.memByte c

/-- Two canonical memories of the same machine that read alike at every address are the same data (the model's form of R40;
log 5). -/
def Obligations.CanonicalMemoryIsDeterminedByReads : Prop :=
  ∀ s t : State, s.params = t.params → s.memCanonical → t.memCanonical → memSame s t → s.mem = t.mem

/-! ## The display -/

/-- `00E0` clears every cell, sets `DIRTY`, advances and changes nothing else, VF included (44_display.md; that `DIRTY` is set
in any case is the spec's decision D20). -/
def Obligations.ClearDisplayClearsEveryCell : Prop :=
  ∀ s : State, ∃ t, exec .cls s = .next t ∧ (∀ r c, pixel t.disp r c = false) ∧ t.dirty = true ∧ t.pc = s.pc + 2 ∧
    t = { s with disp := t.disp, dirty := t.dirty, pc := t.pc }

/-- `Dxyn` inside memory: the display afterwards is the display before, exclusive or, the cells the sprite covers, with wrap at
both edges; VF is 1 exactly when some covered cell was set (44_display.md, the law of drawing; `DIRTY` by decision D20). -/
def Obligations.DrawIsXorWithCollision : Prop :=
  ∀ (x y : Reg) (n : Nibble) (s : State), s.i.toNat % 4096 + n.toNat ≤ 4096 →
    ∃ t, exec (.drw x y n) s = .next t ∧
      (∀ r c, (spriteCovers s x y n r c → pixel t.disp r c = !pixel s.disp r c) ∧
        (¬ spriteCovers s x y n r c → pixel t.disp r c = pixel s.disp r c)) ∧
      (t.getV 0xF = 1 ↔ ∃ r c, spriteCovers s x y n r c ∧ pixel s.disp r c = true) ∧
      (t.getV 0xF = 0 ↔ ¬ ∃ r c, spriteCovers s x y n r c ∧ pixel s.disp r c = true) ∧
      t.dirty = true ∧ t.pc = s.pc + 2

/-- The same sprite drawn twice restores the display when neither coordinate register is VF, and the second draw's VF is 1
exactly when some covered cell was clear at first (44_display.md, the law the spec derives from R141). -/
def Obligations.DrawingTwiceRestoresDisplay : Prop :=
  ∀ (x y : Reg) (n : Nibble) (s : State), x ≠ 0xF → y ≠ 0xF → s.i.toNat % 4096 + n.toNat ≤ 4096 →
    ∃ t u, exec (.drw x y n) s = .next t ∧ exec (.drw x y n) t = .next u ∧ u.disp = s.disp ∧
      (u.getV 0xF = 1 ↔ ∃ r c, spriteCovers s x y n r c ∧ pixel s.disp r c = false)

/-- `Dxyn` that would read at 4096 or above draws nothing and raises `AddressOutOfRange(4096)`; with `n = 0` it never does, and
leaves the display as it is with VF 0 and `DIRTY` 1 (44_display.md; the spec's decisions D6, D7, D20). -/
def Obligations.DrawBoundsAndEmptySprite : Prop :=
  ∀ (x y : Reg) (n : Nibble) (s : State),
    (n ≠ 0 → s.i.toNat % 4096 + n.toNat - 1 > 4095 → exec (.drw x y n) s = .fault (.addressOutOfRange 4096)) ∧
    (n = 0 → ∃ t, exec (.drw x y n) s = .next t ∧ t.disp = s.disp ∧ t.getV 0xF = 0 ∧ t.dirty = true ∧ t.pc = s.pc + 2)

/-- Frame of the display instructions: the display, `DIRTY`, `PC` and, for `Dxyn`, VF; no other register, no byte of memory,
`I`, timer, stack or latch (44_display.md). -/
def Obligations.DisplayInstructionFrame : Prop :=
  ∀ (x y : Reg) (n : Nibble) (s t : State),
    (exec .cls s = .next t → regsSameExcept s t [] ∧ memSame s t ∧
      t = { s with disp := t.disp, dirty := t.dirty, pc := s.pc + 2 }) ∧
    (exec (.drw x y n) s = .next t → regsSameExcept s t [0xF] ∧ memSame s t ∧
      t = { s with v := t.v, disp := t.disp, dirty := t.dirty, pc := s.pc + 2 })

/-! ## Timers, keys, random, the key wait -/

/-- R150, R151, R152: `Fx07` reads `DT`, `Fx15` writes it, `Fx18` writes `ST`, after which the sound output is on exactly when
`V[x]` is above zero; each advances and changes nothing else. -/
def Obligations.TimerAccess : Prop :=
  ∀ (x : Reg) (s : State),
    decodeWord (formatXK 0xF x 0x07) = some (.ldVxDt x) ∧ decodeWord (formatXK 0xF x 0x15) = some (.ldDtVx x) ∧
    decodeWord (formatXK 0xF x 0x18) = some (.ldStVx x) ∧
    (∃ t, exec (.ldVxDt x) s = .next t ∧ t.getV x = s.dt ∧ t.pc = s.pc + 2 ∧ regsSameExcept s t [x] ∧
      t = { s with v := t.v, pc := t.pc }) ∧
    (∃ t, exec (.ldDtVx x) s = .next t ∧ t.dt = s.getV x ∧ t.pc = s.pc + 2 ∧ t = { s with dt := t.dt, pc := t.pc }) ∧
    (∃ t, exec (.ldStVx x) s = .next t ∧ t.st = s.getV x ∧ t.pc = s.pc + 2 ∧ t = { s with st := t.st, pc := t.pc } ∧
      (t.soundActive = true ↔ 0 < (s.getV x).toNat))

/-- `Ex9E` skips when the key numbered by the low four bits of `V[x]` is pressed, `ExA1` when it is not
(45_timer_key_random.md; the low four bits are the spec's decision D17). -/
def Obligations.KeySkips : Prop :=
  ∀ (x : Reg) (s : State) (k : Fin 16), k.val = (s.getV x).toNat % 16 →
    (∃ t, exec (.skp x) s = .next t ∧ t.pc = (if s.keys[k] = true then s.pc + 4 else s.pc + 2) ∧ t = { s with pc := t.pc }) ∧
    (∃ t, exec (.sknp x) s = .next t ∧ t.pc = (if s.keys[k] = false then s.pc + 4 else s.pc + 2) ∧ t = { s with pc := t.pc })

/-- `Cxkk` puts the drawn byte and `kk` in `V[x]`, for whatever byte is drawn: bits of the result stand only where `kk` has
them, and `kk = 0` gives 0 (45_timer_key_random.md; the byte is a free value, log 2, by the spec's decision D19). -/
def Obligations.RandomIsMasked : Prop :=
  ∀ (x : Reg) (kk : Byte) (s : State),
    (∃ t rnd, exec (.rnd x kk) s = .next t ∧ t = s.randomInto rnd x kk) ∧
    (∀ rnd : Byte, (∀ k, ((s.randomInto rnd x kk).getV x).getLsbD k = (rnd.getLsbD k && kk.getLsbD k)) ∧
      (kk = 0 → (s.randomInto rnd x kk).getV x = 0) ∧ (s.randomInto rnd x kk).pc = s.pc + 2 ∧
      regsSameExcept s (s.randomInto rnd x kk) [x] ∧ memSame s (s.randomInto rnd x kk) ∧
      s.randomInto rnd x kk =
        { s with v := (s.randomInto rnd x kk).v, pc := s.pc + 2, draws := (s.randomInto rnd x kk).draws })

/-- `Fx0A` begins the key wait for `V[x]`: `PC` stays, no register is written, the keys are not looked at; a key that was held
already ends the wait at the first poll, one step later (45_timer_key_random.md; the spec's decision D18). -/
def Obligations.WaitForKeyTakesTwoSteps : Prop :=
  ∀ (x : Reg) (s : State), ∃ t, exec (.ldVxK x) s = .next t ∧ t = { s with run := .waitingForKey x } ∧
    (s.schedule = [] → ∀ k : Fin 16, s.keys[k] = true → (∀ j : Fin 16, j < k → s.keys[j] = false) →
      ∃ u, step t = .next u ∧ (u.getV x).toNat = k.val ∧ u.pc = s.pc + 2 ∧ u.run = .running)

/-- A step in the key wait: with a key pressed, the lowest-numbered one goes to the register, the machine runs and `PC` passes
the `Fx0A`; with none, nothing changes (45_timer_key_random.md; the spec's decision D18). -/
def Obligations.KeyWaitPollTakesLowestKey : Prop :=
  ∀ (s : State) (t : Reg), s.schedule = [] → s.run = .waitingForKey t →
    (∀ k : Fin 16, s.keys[k] = true → (∀ j : Fin 16, j < k → s.keys[j] = false) →
      ∃ u, step s = .next u ∧ (u.getV t).toNat = k.val ∧ u.run = .running ∧ u.pc = s.pc + 2 ∧
        regsSameExcept s u [t] ∧ u = { s with v := u.v, run := u.run, pc := u.pc }) ∧
    ((∀ k : Fin 16, s.keys[k] = false) → step s = .next s)

/-- In the key wait a step cannot fault and does not depend on memory, `I`, the stack and `SP`, the timers, the
display, `DIRTY` or the random draws, and leaves them as they are (40_step_cycle.md section 1, 45_timer_key_random.md;
decision D18). -/
def Obligations.KeyWaitIgnoresMemory : Prop :=
  ∀ (s : State) (r : Reg) (m : Memory) (i : Word) (p : Fin 17) (k : Vector Word 16) (dt st : Byte) (d : Display) (b : Bool)
    (n : Nat), s.run = .waitingForKey r →
    ∃ t, stepTransaction s = .next t ∧
      stepTransaction { s with mem := m, i := i, sp := p, stack := k, dt := dt, st := st, disp := d, dirty := b, draws := n } =
        .next { t with mem := m, i := i, sp := p, stack := k, dt := dt, st := st, disp := d, dirty := b, draws := n }

/-! ## The driver's transactions -/

/-- R175: `tick` lowers each timer by one, floor 0, and changes nothing else, in every state. -/
def Obligations.TickLowersTimers : Prop :=
  ∀ s : State, ∃ t, hostMove .tick s = .next t ∧ t.dt.toNat = s.dt.toNat - 1 ∧ t.st.toNat = s.st.toNat - 1 ∧
    t = { s with dt := t.dt, st := t.st }

/-- A timer of value `v` is zero after `v` ticks and stays zero: after `n` ticks it holds `v - n`, floor 0, and the sound
output is on exactly while `ST` is above that (60_exceptions.md section 5). -/
def Obligations.TimersReachZeroAndStay : Prop :=
  ∀ (n : Nat) (s : State), (ticks n s).dt.toNat = s.dt.toNat - n ∧ (ticks n s).st.toNat = s.st.toNat - n ∧
    ((ticks n s).soundActive = true ↔ n < s.st.toNat) ∧ ticks n s = { s with dt := (ticks n s).dt, st := (ticks n s).st }

/-- R177: `set_keys(k)` replaces all sixteen bits of the latch by those of `k` and changes nothing else, in every state. -/
def Obligations.SetKeysReplacesLatch : Prop :=
  ∀ (k : Word) (s : State), ∃ t, hostMove (.setKeys k) s = .next t ∧ (∀ j : Fin 16, t.keys[j] = k.getLsbD j.val) ∧
    t = { s with keys := t.keys }

/-- `clear_dirty` makes `DIRTY` 0 and changes nothing else (60_exceptions.md section 6; the spec's decision D20). -/
def Obligations.ClearDirtyClearsFlag : Prop :=
  ∀ s : State, ∃ t, hostMove .clearDirty s = .next t ∧ t.dirty = false ∧ t = { s with dirty := t.dirty }

/-- `load` of more than 3584 bytes raises `ProgramTooLarge` with the length and the machine stays as it was; else byte `i`
of the program is at 0x200 + `i` afterwards and no other byte changes; an empty program writes nothing (20_memory.md section
4; that this holds in every state and nothing else changes is the spec's decision D23, log 21; that a fault writes nothing
its D7, log 9). -/
def Obligations.LoadCopiesProgram : Prop :=
  ∀ (bytes : List Byte) (s : State),
    (bytes.length > 3584 → hostMove (.load bytes) s = .fault (.programTooLarge bytes.length) ∧
      stateAfter s (hostMove (.load bytes) s) = s) ∧
    (bytes.length ≤ 3584 → ∃ t, hostMove (.load bytes) s = .next t ∧
      (∀ k (h : k < bytes.length), t.memByte (0x200 + k) = bytes[k]) ∧ memSameOutside s t 0x200 bytes.length ∧
      t = { s with mem := t.mem } ∧ (bytes = [] → t = s))

/-- `load` is taken at any time, in a key wait and after a fault too, and a second one overwrites only the bytes it brings:
after a longer program and then a shorter one, the tail of the first stands behind the second, and every byte outside the
first is as it was (20_memory.md section 4, Z3 and Z4 of 95_test_vectors.md; the spec's decision D23). -/
def Obligations.SecondLoadOverwritesItsBytes : Prop :=
  ∀ (first second : List Byte) (s : State), first.length ≤ 3584 → second.length ≤ first.length →
    ∃ t u, hostMove (.load first) s = .next t ∧ hostMove (.load second) t = .next u ∧ u = { s with mem := u.mem } ∧
      memSameOutside s u 0x200 first.length ∧
      ∀ k, u.memByte (0x200 + k) =
        if h : k < second.length then second[k] else if h : k < first.length then first[k] else s.memByte (0x200 + k)

/-- What reset leaves, for every value of the parameters: the table of R30 (all its values are the spec's decision D21),
with the font at `FONT_BASE` (D2, D3) and zero in every other byte; and the model's reset state is that one at the default
parameters (D2, D4; log 1). The 80 bytes of the font stand here as the numbers of R47, glyph by glyph (D3; log 4). -/
def Obligations.ResetStateValues : Prop :=
  fontBytes =
    [0xF0, 0x90, 0x90, 0x90, 0xF0] ++ [0x20, 0x60, 0x20, 0x20, 0x70] ++ [0xF0, 0x10, 0xF0, 0x80, 0xF0] ++
    [0xF0, 0x10, 0xF0, 0x10, 0xF0] ++ [0x90, 0x90, 0xF0, 0x10, 0x10] ++ [0xF0, 0x80, 0xF0, 0x10, 0xF0] ++
    [0xF0, 0x80, 0xF0, 0x90, 0xF0] ++ [0xF0, 0x10, 0x20, 0x40, 0x40] ++ [0xF0, 0x90, 0xF0, 0x90, 0xF0] ++
    [0xF0, 0x90, 0xF0, 0x10, 0xF0] ++ [0xF0, 0x90, 0xF0, 0x90, 0x90] ++ [0xE0, 0x90, 0xE0, 0x90, 0xE0] ++
    [0xF0, 0x80, 0x80, 0x80, 0xF0] ++ [0xE0, 0x90, 0x90, 0x90, 0xE0] ++ [0xF0, 0x80, 0xF0, 0x80, 0xF0] ++
    [0xF0, 0x80, 0xF0, 0x80, 0x80] ∧
  State.reset = State.resetWith Params.default ∧ Params.default.fontBase.val = 0x050 ∧ Params.default.shiftSource = .vx ∧
  ∀ p : Params, (∀ r, (State.resetWith p).getV r = 0) ∧ (State.resetWith p).i = 0 ∧ (State.resetWith p).pc = 0x200 ∧
    (State.resetWith p).sp.val = 0 ∧ (∀ j : Fin 16, (State.resetWith p).stack[j] = 0) ∧ (State.resetWith p).dt = 0 ∧
    (State.resetWith p).st = 0 ∧ (State.resetWith p).soundActive = false ∧
    (∀ k, k < 80 → (State.resetWith p).memByte (p.fontBase.val + k) = fontBytes.getD k 0) ∧
    (∀ a, a < p.fontBase.val ∨ p.fontBase.val + 80 ≤ a → (State.resetWith p).memByte a = 0) ∧
    (∀ r c, pixel (State.resetWith p).disp r c = false) ∧ (State.resetWith p).dirty = true ∧
    (∀ k : Fin 16, (State.resetWith p).keys[k] = false) ∧ (State.resetWith p).run = .running

/-- A `reset` after any history of transactions, faults and a key wait included, gives the reset state of the same machine: the
program and every store are gone (70_reset_and_hazards.md section 1; the spec's decisions D21, D22). The model's own two
fields go on (logs 2, 3). -/
def Obligations.ResetErasesEveryHistory : Prop :=
  ∀ (ts : List Transaction) (s : State), ∃ n,
    (runTransactions (ts ++ [.host .reset]) s).1 =
      { State.resetWith s.params with draws := n, schedule := s.schedule }

/-! ## Rules of the whole machine -/

/-- Every step, an instruction, a key-wait poll or a transaction of the driver, keeps the invariant: memory canonical (the
model's own form, log 5), `PC` at most 0x10FE (10_state.md section 5, an inference the spec marks as its own) and at most 4094 in
a key wait (`PC` stays at the `Fx0A`: the spec's decision D18, log 18), every stack slot at most 4096 (a call pushes `PC + 2`: its
decision D5, log 20). -/
def Obligations.StepKeepsInvariant : Prop :=
  ∀ s t : State, s.Inv → step s = .next t → t.Inv

/-- The reset state of every machine meets the invariant: memory canonical in the model's own form (log 5), and the reset values
of `PC`, `RUN` and the stack slots, which are all the spec's decision D21 (log 8), within their bounds. -/
def Obligations.ResetMeetsInvariant : Prop :=
  ∀ p : Params, (State.resetWith p).Inv

/-- A fault stays until a `load` or a `reset`: the same `step` after any `tick`, `set_keys` or `clear_dirty`, and with any
random byte, gives the same fault (40_step_cycle.md section 1; the spec's decision D8). -/
def Obligations.FaultPersists : Prop :=
  ∀ (s : State) (f : Fault), stepTransaction s = .fault f →
    stepTransaction s.tick = .fault f ∧ (∀ k, stepTransaction (s.latch k) = .fault f) ∧
    stepTransaction s.clearDirty = .fault f ∧ ∀ n, stepTransaction { s with draws := n } = .fault f

/-- Which instructions can fault, how and when: the six `00EE 2nnn Dxyn Fx33 Fx55 Fx65` and no others (60_exceptions.md
section 1; that an access reaching 4096 faults and does not wrap is the spec's decision D6, log 6). -/
def Obligations.OnlySixInstructionsFault : Prop :=
  ∀ (i : Instr) (s : State) (f : Fault), exec i s = .fault f ↔
    (i = .ret ∧ s.sp.val = 0 ∧ f = .stackUnderflow) ∨
    ((∃ nnn, i = .call nnn) ∧ s.sp.val = 16 ∧ f = .stackOverflow) ∨
    ((∃ x y n, i = .drw x y n ∧ s.i.toNat % 4096 + n.toNat > 4096) ∧ f = .addressOutOfRange 4096) ∨
    ((∃ x, i = .ldB x) ∧ s.i.toNat % 4096 + 2 > 4095 ∧ f = .addressOutOfRange 4096) ∨
    ((∃ x, (i = .ldMemVx x ∨ i = .ldVxMem x) ∧ s.i.toNat % 4096 + x.val > 4095) ∧ f = .addressOutOfRange 4096)

/-- No instruction and no transaction is refused: each goes on or raises a fault of the spec (30_encoding.md,
60_exceptions.md). -/
def Obligations.NothingIsRefused : Prop :=
  (∀ (i : Instr) (s : State) (r : Refusal), exec i s ≠ .refused r) ∧ ∀ (s : State) (r : Refusal), step s ≠ .refused r

/-- Who writes each piece of state: a general register the loads, the ALU, `Cxkk`, `Dxyn`, `Fx07` and `Fx65`; `PC` every
instruction but `Fx0A`, to `PC + 2` but for jumps, call, return and skips; memory `Fx33 Fx55`; the display and `DIRTY` `00E0
Dxyn`; `I` `Annn Fx1E Fx29`; the stack `2nnn 00EE`; the run state `Fx0A`; the timers `Fx15` and `Fx18`; and no instruction
writes the latch or the parameters (10_state.md sections 2 and 4 to 6, 20_memory.md section 1, 00_scope.md section 4). The
model's own fields: the draw counter goes on by `Cxkk` alone and the driver's transactions to come are never touched (logs
2, 3). -/
def Obligations.WritersOfEachPieceOfState : Prop :=
  ∀ (i : Instr) (s t : State), exec i s = .next t →
    (t.v ≠ s.v →
      (∃ x kk, i = .ldImm x kk ∨ i = .addImm x kk ∨ i = .rnd x kk) ∨
      (∃ x y, i = .ldReg x y ∨ i = .orReg x y ∨ i = .andReg x y ∨ i = .xorReg x y) ∨
      (∃ x y, i = .addReg x y ∨ i = .subReg x y ∨ i = .shr x y ∨ i = .subn x y ∨ i = .shl x y) ∨
      (∃ x y n, i = .drw x y n) ∨ ∃ x, i = .ldVxDt x ∨ i = .ldVxMem x) ∧
    (t.pc ≠ s.pc → ∀ x, i ≠ .ldVxK x) ∧
    (t.pc ≠ s.pc + 2 →
      i = .ret ∨ (∃ nnn, i = .jp nnn ∨ i = .call nnn ∨ i = .jpV0 nnn) ∨ (∃ x kk, i = .seImm x kk ∨ i = .sneImm x kk) ∨
      (∃ x y, i = .seReg x y ∨ i = .sneReg x y) ∨ ∃ x, i = .skp x ∨ i = .sknp x ∨ i = .ldVxK x) ∧
    (t.mem ≠ s.mem → ∃ x, i = .ldB x ∨ i = .ldMemVx x) ∧
    (t.disp ≠ s.disp ∨ t.dirty ≠ s.dirty → i = .cls ∨ ∃ x y n, i = .drw x y n) ∧
    (t.i ≠ s.i → (∃ nnn, i = .ldI nnn) ∨ ∃ x, i = .addI x ∨ i = .ldF x) ∧
    (t.sp ≠ s.sp ∨ t.stack ≠ s.stack → i = .ret ∨ ∃ nnn, i = .call nnn) ∧
    (t.run ≠ s.run → ∃ x, i = .ldVxK x) ∧
    (t.dt ≠ s.dt → ∃ x, i = .ldDtVx x) ∧ (t.st ≠ s.st → ∃ x, i = .ldStVx x) ∧
    (t.draws ≠ s.draws → ∃ x kk, i = .rnd x kk) ∧
    t.keys = s.keys ∧ t.params = s.params ∧ t.schedule = s.schedule

/-- VF changes only by the six instructions that set it as a flag, by an instruction that names it as its destination, and by a
load of all sixteen registers (10_state.md section 3). -/
def Obligations.WritersOfTheFlagRegister : Prop :=
  ∀ (i : Instr) (s t : State), exec i s = .next t → t.getV 0xF ≠ s.getV 0xF →
    (∃ x y, i = .addReg x y ∨ i = .subReg x y ∨ i = .shr x y ∨ i = .subn x y ∨ i = .shl x y) ∨
    (∃ x y n, i = .drw x y n) ∨
    (∃ kk, i = .ldImm 0xF kk ∨ i = .addImm 0xF kk ∨ i = .rnd 0xF kk) ∨
    (∃ y, i = .ldReg 0xF y ∨ i = .orReg 0xF y ∨ i = .andReg 0xF y ∨ i = .xorReg 0xF y) ∨
    i = .ldVxDt 0xF ∨ i = .ldVxMem 0xF
end

