-- ==== Sys2Proof/Laws/State.lean ====
section
/-! SUPPORT. One lemma per field of `State` per update, and the same for the reads through accessors, so that no proof unfolds an
update of the state. -/

namespace Sys2Proof.Machine

variable (s : State)

/-! ## setV -/

@[simp] theorem State.setV_v (x : Reg) (b : Byte) : (s.setV x b).v = s.v.set x b := rfl
@[simp] theorem State.setV_i (x : Reg) (b : Byte) : (s.setV x b).i = s.i := rfl
@[simp] theorem State.setV_pc (x : Reg) (b : Byte) : (s.setV x b).pc = s.pc := rfl
@[simp] theorem State.setV_sp (x : Reg) (b : Byte) : (s.setV x b).sp = s.sp := rfl
@[simp] theorem State.setV_stack (x : Reg) (b : Byte) : (s.setV x b).stack = s.stack := rfl
@[simp] theorem State.setV_dt (x : Reg) (b : Byte) : (s.setV x b).dt = s.dt := rfl
@[simp] theorem State.setV_st (x : Reg) (b : Byte) : (s.setV x b).st = s.st := rfl
@[simp] theorem State.setV_mem (x : Reg) (b : Byte) : (s.setV x b).mem = s.mem := rfl
@[simp] theorem State.setV_disp (x : Reg) (b : Byte) : (s.setV x b).disp = s.disp := rfl
@[simp] theorem State.setV_dirty (x : Reg) (b : Byte) : (s.setV x b).dirty = s.dirty := rfl
@[simp] theorem State.setV_keys (x : Reg) (b : Byte) : (s.setV x b).keys = s.keys := rfl
@[simp] theorem State.setV_run (x : Reg) (b : Byte) : (s.setV x b).run = s.run := rfl
@[simp] theorem State.setV_params (x : Reg) (b : Byte) : (s.setV x b).params = s.params := rfl
@[simp] theorem State.setV_draws (x : Reg) (b : Byte) : (s.setV x b).draws = s.draws := rfl
@[simp] theorem State.setV_schedule (x : Reg) (b : Byte) : (s.setV x b).schedule = s.schedule := rfl
@[simp] theorem State.setV_memByte (x : Reg) (b : Byte) (c : Nat) : (s.setV x b).memByte c = s.memByte c := rfl
@[simp] theorem State.setV_baseAddr (x : Reg) (b : Byte) : (s.setV x b).baseAddr = s.baseAddr := rfl

/-! ## setVFlag -/

@[simp] theorem State.setVFlag_v (x : Reg) (b f : Byte) : (s.setVFlag x b f).v = (s.v.set x b).set (0xF : Reg) f := rfl
@[simp] theorem State.setVFlag_i (x : Reg) (b f : Byte) : (s.setVFlag x b f).i = s.i := rfl
@[simp] theorem State.setVFlag_pc (x : Reg) (b f : Byte) : (s.setVFlag x b f).pc = s.pc := rfl
@[simp] theorem State.setVFlag_sp (x : Reg) (b f : Byte) : (s.setVFlag x b f).sp = s.sp := rfl
@[simp] theorem State.setVFlag_stack (x : Reg) (b f : Byte) : (s.setVFlag x b f).stack = s.stack := rfl
@[simp] theorem State.setVFlag_dt (x : Reg) (b f : Byte) : (s.setVFlag x b f).dt = s.dt := rfl
@[simp] theorem State.setVFlag_st (x : Reg) (b f : Byte) : (s.setVFlag x b f).st = s.st := rfl
@[simp] theorem State.setVFlag_mem (x : Reg) (b f : Byte) : (s.setVFlag x b f).mem = s.mem := rfl
@[simp] theorem State.setVFlag_disp (x : Reg) (b f : Byte) : (s.setVFlag x b f).disp = s.disp := rfl
@[simp] theorem State.setVFlag_dirty (x : Reg) (b f : Byte) : (s.setVFlag x b f).dirty = s.dirty := rfl
@[simp] theorem State.setVFlag_keys (x : Reg) (b f : Byte) : (s.setVFlag x b f).keys = s.keys := rfl
@[simp] theorem State.setVFlag_run (x : Reg) (b f : Byte) : (s.setVFlag x b f).run = s.run := rfl
@[simp] theorem State.setVFlag_params (x : Reg) (b f : Byte) : (s.setVFlag x b f).params = s.params := rfl
@[simp] theorem State.setVFlag_draws (x : Reg) (b f : Byte) : (s.setVFlag x b f).draws = s.draws := rfl
@[simp] theorem State.setVFlag_schedule (x : Reg) (b f : Byte) : (s.setVFlag x b f).schedule = s.schedule := rfl
@[simp] theorem State.setVFlag_memByte (x : Reg) (b f : Byte) (c : Nat) : (s.setVFlag x b f).memByte c = s.memByte c := rfl
@[simp] theorem State.setVFlag_baseAddr (x : Reg) (b f : Byte) : (s.setVFlag x b f).baseAddr = s.baseAddr := rfl

/-! ## setVUpTo -/

@[simp] theorem State.setVUpTo_v (x : Reg) (f : Nat → Byte) : (s.setVUpTo x f).v = loadRegs s.v f (x.val + 1) := rfl
@[simp] theorem State.setVUpTo_i (x : Reg) (f : Nat → Byte) : (s.setVUpTo x f).i = s.i := rfl
@[simp] theorem State.setVUpTo_pc (x : Reg) (f : Nat → Byte) : (s.setVUpTo x f).pc = s.pc := rfl
@[simp] theorem State.setVUpTo_sp (x : Reg) (f : Nat → Byte) : (s.setVUpTo x f).sp = s.sp := rfl
@[simp] theorem State.setVUpTo_stack (x : Reg) (f : Nat → Byte) : (s.setVUpTo x f).stack = s.stack := rfl
@[simp] theorem State.setVUpTo_dt (x : Reg) (f : Nat → Byte) : (s.setVUpTo x f).dt = s.dt := rfl
@[simp] theorem State.setVUpTo_st (x : Reg) (f : Nat → Byte) : (s.setVUpTo x f).st = s.st := rfl
@[simp] theorem State.setVUpTo_mem (x : Reg) (f : Nat → Byte) : (s.setVUpTo x f).mem = s.mem := rfl
@[simp] theorem State.setVUpTo_disp (x : Reg) (f : Nat → Byte) : (s.setVUpTo x f).disp = s.disp := rfl
@[simp] theorem State.setVUpTo_dirty (x : Reg) (f : Nat → Byte) : (s.setVUpTo x f).dirty = s.dirty := rfl
@[simp] theorem State.setVUpTo_keys (x : Reg) (f : Nat → Byte) : (s.setVUpTo x f).keys = s.keys := rfl
@[simp] theorem State.setVUpTo_run (x : Reg) (f : Nat → Byte) : (s.setVUpTo x f).run = s.run := rfl
@[simp] theorem State.setVUpTo_params (x : Reg) (f : Nat → Byte) : (s.setVUpTo x f).params = s.params := rfl
@[simp] theorem State.setVUpTo_draws (x : Reg) (f : Nat → Byte) : (s.setVUpTo x f).draws = s.draws := rfl
@[simp] theorem State.setVUpTo_schedule (x : Reg) (f : Nat → Byte) : (s.setVUpTo x f).schedule = s.schedule := rfl
@[simp] theorem State.setVUpTo_memByte (x : Reg) (f : Nat → Byte) (c : Nat) : (s.setVUpTo x f).memByte c = s.memByte c := rfl
@[simp] theorem State.setVUpTo_baseAddr (x : Reg) (f : Nat → Byte) : (s.setVUpTo x f).baseAddr = s.baseAddr := rfl

/-! ## putByte -/

@[simp] theorem State.putByte_v (a : Nat) (b : Byte) : (s.putByte a b).v = s.v := rfl
@[simp] theorem State.putByte_i (a : Nat) (b : Byte) : (s.putByte a b).i = s.i := rfl
@[simp] theorem State.putByte_pc (a : Nat) (b : Byte) : (s.putByte a b).pc = s.pc := rfl
@[simp] theorem State.putByte_sp (a : Nat) (b : Byte) : (s.putByte a b).sp = s.sp := rfl
@[simp] theorem State.putByte_stack (a : Nat) (b : Byte) : (s.putByte a b).stack = s.stack := rfl
@[simp] theorem State.putByte_dt (a : Nat) (b : Byte) : (s.putByte a b).dt = s.dt := rfl
@[simp] theorem State.putByte_st (a : Nat) (b : Byte) : (s.putByte a b).st = s.st := rfl
@[simp] theorem State.putByte_mem (a : Nat) (b : Byte) : (s.putByte a b).mem = Memory.write s.params s.mem a b := rfl
@[simp] theorem State.putByte_disp (a : Nat) (b : Byte) : (s.putByte a b).disp = s.disp := rfl
@[simp] theorem State.putByte_dirty (a : Nat) (b : Byte) : (s.putByte a b).dirty = s.dirty := rfl
@[simp] theorem State.putByte_keys (a : Nat) (b : Byte) : (s.putByte a b).keys = s.keys := rfl
@[simp] theorem State.putByte_run (a : Nat) (b : Byte) : (s.putByte a b).run = s.run := rfl
@[simp] theorem State.putByte_params (a : Nat) (b : Byte) : (s.putByte a b).params = s.params := rfl
@[simp] theorem State.putByte_draws (a : Nat) (b : Byte) : (s.putByte a b).draws = s.draws := rfl
@[simp] theorem State.putByte_schedule (a : Nat) (b : Byte) : (s.putByte a b).schedule = s.schedule := rfl
@[simp] theorem State.putByte_getV (a : Nat) (b : Byte) (y : Reg) : (s.putByte a b).getV y = s.getV y := rfl
@[simp] theorem State.putByte_baseAddr (a : Nat) (b : Byte) : (s.putByte a b).baseAddr = s.baseAddr := rfl

/-! ## setI -/

@[simp] theorem State.setI_v (w : Word) : (s.setI w).v = s.v := rfl
@[simp] theorem State.setI_i (w : Word) : (s.setI w).i = w := rfl
@[simp] theorem State.setI_pc (w : Word) : (s.setI w).pc = s.pc := rfl
@[simp] theorem State.setI_sp (w : Word) : (s.setI w).sp = s.sp := rfl
@[simp] theorem State.setI_stack (w : Word) : (s.setI w).stack = s.stack := rfl
@[simp] theorem State.setI_dt (w : Word) : (s.setI w).dt = s.dt := rfl
@[simp] theorem State.setI_st (w : Word) : (s.setI w).st = s.st := rfl
@[simp] theorem State.setI_mem (w : Word) : (s.setI w).mem = s.mem := rfl
@[simp] theorem State.setI_disp (w : Word) : (s.setI w).disp = s.disp := rfl
@[simp] theorem State.setI_dirty (w : Word) : (s.setI w).dirty = s.dirty := rfl
@[simp] theorem State.setI_keys (w : Word) : (s.setI w).keys = s.keys := rfl
@[simp] theorem State.setI_run (w : Word) : (s.setI w).run = s.run := rfl
@[simp] theorem State.setI_params (w : Word) : (s.setI w).params = s.params := rfl
@[simp] theorem State.setI_draws (w : Word) : (s.setI w).draws = s.draws := rfl
@[simp] theorem State.setI_schedule (w : Word) : (s.setI w).schedule = s.schedule := rfl
@[simp] theorem State.setI_getV (w : Word) (y : Reg) : (s.setI w).getV y = s.getV y := rfl
@[simp] theorem State.setI_memByte (w : Word) (c : Nat) : (s.setI w).memByte c = s.memByte c := rfl

/-! ## setDt -/

@[simp] theorem State.setDt_v (b : Byte) : (s.setDt b).v = s.v := rfl
@[simp] theorem State.setDt_i (b : Byte) : (s.setDt b).i = s.i := rfl
@[simp] theorem State.setDt_pc (b : Byte) : (s.setDt b).pc = s.pc := rfl
@[simp] theorem State.setDt_sp (b : Byte) : (s.setDt b).sp = s.sp := rfl
@[simp] theorem State.setDt_stack (b : Byte) : (s.setDt b).stack = s.stack := rfl
@[simp] theorem State.setDt_dt (b : Byte) : (s.setDt b).dt = b := rfl
@[simp] theorem State.setDt_st (b : Byte) : (s.setDt b).st = s.st := rfl
@[simp] theorem State.setDt_mem (b : Byte) : (s.setDt b).mem = s.mem := rfl
@[simp] theorem State.setDt_disp (b : Byte) : (s.setDt b).disp = s.disp := rfl
@[simp] theorem State.setDt_dirty (b : Byte) : (s.setDt b).dirty = s.dirty := rfl
@[simp] theorem State.setDt_keys (b : Byte) : (s.setDt b).keys = s.keys := rfl
@[simp] theorem State.setDt_run (b : Byte) : (s.setDt b).run = s.run := rfl
@[simp] theorem State.setDt_params (b : Byte) : (s.setDt b).params = s.params := rfl
@[simp] theorem State.setDt_draws (b : Byte) : (s.setDt b).draws = s.draws := rfl
@[simp] theorem State.setDt_schedule (b : Byte) : (s.setDt b).schedule = s.schedule := rfl
@[simp] theorem State.setDt_getV (b : Byte) (y : Reg) : (s.setDt b).getV y = s.getV y := rfl
@[simp] theorem State.setDt_memByte (b : Byte) (c : Nat) : (s.setDt b).memByte c = s.memByte c := rfl
@[simp] theorem State.setDt_baseAddr (b : Byte) : (s.setDt b).baseAddr = s.baseAddr := rfl

/-! ## setSt -/

@[simp] theorem State.setSt_v (b : Byte) : (s.setSt b).v = s.v := rfl
@[simp] theorem State.setSt_i (b : Byte) : (s.setSt b).i = s.i := rfl
@[simp] theorem State.setSt_pc (b : Byte) : (s.setSt b).pc = s.pc := rfl
@[simp] theorem State.setSt_sp (b : Byte) : (s.setSt b).sp = s.sp := rfl
@[simp] theorem State.setSt_stack (b : Byte) : (s.setSt b).stack = s.stack := rfl
@[simp] theorem State.setSt_dt (b : Byte) : (s.setSt b).dt = s.dt := rfl
@[simp] theorem State.setSt_st (b : Byte) : (s.setSt b).st = b := rfl
@[simp] theorem State.setSt_mem (b : Byte) : (s.setSt b).mem = s.mem := rfl
@[simp] theorem State.setSt_disp (b : Byte) : (s.setSt b).disp = s.disp := rfl
@[simp] theorem State.setSt_dirty (b : Byte) : (s.setSt b).dirty = s.dirty := rfl
@[simp] theorem State.setSt_keys (b : Byte) : (s.setSt b).keys = s.keys := rfl
@[simp] theorem State.setSt_run (b : Byte) : (s.setSt b).run = s.run := rfl
@[simp] theorem State.setSt_params (b : Byte) : (s.setSt b).params = s.params := rfl
@[simp] theorem State.setSt_draws (b : Byte) : (s.setSt b).draws = s.draws := rfl
@[simp] theorem State.setSt_schedule (b : Byte) : (s.setSt b).schedule = s.schedule := rfl
@[simp] theorem State.setSt_getV (b : Byte) (y : Reg) : (s.setSt b).getV y = s.getV y := rfl
@[simp] theorem State.setSt_memByte (b : Byte) (c : Nat) : (s.setSt b).memByte c = s.memByte c := rfl
@[simp] theorem State.setSt_baseAddr (b : Byte) : (s.setSt b).baseAddr = s.baseAddr := rfl

/-! ## setRun -/

@[simp] theorem State.setRun_v (r : RunState) : (s.setRun r).v = s.v := rfl
@[simp] theorem State.setRun_i (r : RunState) : (s.setRun r).i = s.i := rfl
@[simp] theorem State.setRun_pc (r : RunState) : (s.setRun r).pc = s.pc := rfl
@[simp] theorem State.setRun_sp (r : RunState) : (s.setRun r).sp = s.sp := rfl
@[simp] theorem State.setRun_stack (r : RunState) : (s.setRun r).stack = s.stack := rfl
@[simp] theorem State.setRun_dt (r : RunState) : (s.setRun r).dt = s.dt := rfl
@[simp] theorem State.setRun_st (r : RunState) : (s.setRun r).st = s.st := rfl
@[simp] theorem State.setRun_mem (r : RunState) : (s.setRun r).mem = s.mem := rfl
@[simp] theorem State.setRun_disp (r : RunState) : (s.setRun r).disp = s.disp := rfl
@[simp] theorem State.setRun_dirty (r : RunState) : (s.setRun r).dirty = s.dirty := rfl
@[simp] theorem State.setRun_keys (r : RunState) : (s.setRun r).keys = s.keys := rfl
@[simp] theorem State.setRun_run (r : RunState) : (s.setRun r).run = r := rfl
@[simp] theorem State.setRun_params (r : RunState) : (s.setRun r).params = s.params := rfl
@[simp] theorem State.setRun_draws (r : RunState) : (s.setRun r).draws = s.draws := rfl
@[simp] theorem State.setRun_schedule (r : RunState) : (s.setRun r).schedule = s.schedule := rfl
@[simp] theorem State.setRun_getV (r : RunState) (y : Reg) : (s.setRun r).getV y = s.getV y := rfl
@[simp] theorem State.setRun_memByte (r : RunState) (c : Nat) : (s.setRun r).memByte c = s.memByte c := rfl
@[simp] theorem State.setRun_baseAddr (r : RunState) : (s.setRun r).baseAddr = s.baseAddr := rfl

/-! ## setKeys -/

@[simp] theorem State.setKeys_v (k : Vector Bool 16) : (s.setKeys k).v = s.v := rfl
@[simp] theorem State.setKeys_i (k : Vector Bool 16) : (s.setKeys k).i = s.i := rfl
@[simp] theorem State.setKeys_pc (k : Vector Bool 16) : (s.setKeys k).pc = s.pc := rfl
@[simp] theorem State.setKeys_sp (k : Vector Bool 16) : (s.setKeys k).sp = s.sp := rfl
@[simp] theorem State.setKeys_stack (k : Vector Bool 16) : (s.setKeys k).stack = s.stack := rfl
@[simp] theorem State.setKeys_dt (k : Vector Bool 16) : (s.setKeys k).dt = s.dt := rfl
@[simp] theorem State.setKeys_st (k : Vector Bool 16) : (s.setKeys k).st = s.st := rfl
@[simp] theorem State.setKeys_mem (k : Vector Bool 16) : (s.setKeys k).mem = s.mem := rfl
@[simp] theorem State.setKeys_disp (k : Vector Bool 16) : (s.setKeys k).disp = s.disp := rfl
@[simp] theorem State.setKeys_dirty (k : Vector Bool 16) : (s.setKeys k).dirty = s.dirty := rfl
@[simp] theorem State.setKeys_keys (k : Vector Bool 16) : (s.setKeys k).keys = k := rfl
@[simp] theorem State.setKeys_run (k : Vector Bool 16) : (s.setKeys k).run = s.run := rfl
@[simp] theorem State.setKeys_params (k : Vector Bool 16) : (s.setKeys k).params = s.params := rfl
@[simp] theorem State.setKeys_draws (k : Vector Bool 16) : (s.setKeys k).draws = s.draws := rfl
@[simp] theorem State.setKeys_schedule (k : Vector Bool 16) : (s.setKeys k).schedule = s.schedule := rfl
@[simp] theorem State.setKeys_getV (k : Vector Bool 16) (y : Reg) : (s.setKeys k).getV y = s.getV y := rfl
@[simp] theorem State.setKeys_memByte (k : Vector Bool 16) (c : Nat) : (s.setKeys k).memByte c = s.memByte c := rfl
@[simp] theorem State.setKeys_baseAddr (k : Vector Bool 16) : (s.setKeys k).baseAddr = s.baseAddr := rfl

/-! ## setDisp -/

@[simp] theorem State.setDisp_v (d : Display) : (s.setDisp d).v = s.v := rfl
@[simp] theorem State.setDisp_i (d : Display) : (s.setDisp d).i = s.i := rfl
@[simp] theorem State.setDisp_pc (d : Display) : (s.setDisp d).pc = s.pc := rfl
@[simp] theorem State.setDisp_sp (d : Display) : (s.setDisp d).sp = s.sp := rfl
@[simp] theorem State.setDisp_stack (d : Display) : (s.setDisp d).stack = s.stack := rfl
@[simp] theorem State.setDisp_dt (d : Display) : (s.setDisp d).dt = s.dt := rfl
@[simp] theorem State.setDisp_st (d : Display) : (s.setDisp d).st = s.st := rfl
@[simp] theorem State.setDisp_mem (d : Display) : (s.setDisp d).mem = s.mem := rfl
@[simp] theorem State.setDisp_disp (d : Display) : (s.setDisp d).disp = d := rfl
@[simp] theorem State.setDisp_dirty (d : Display) : (s.setDisp d).dirty = s.dirty := rfl
@[simp] theorem State.setDisp_keys (d : Display) : (s.setDisp d).keys = s.keys := rfl
@[simp] theorem State.setDisp_run (d : Display) : (s.setDisp d).run = s.run := rfl
@[simp] theorem State.setDisp_params (d : Display) : (s.setDisp d).params = s.params := rfl
@[simp] theorem State.setDisp_draws (d : Display) : (s.setDisp d).draws = s.draws := rfl
@[simp] theorem State.setDisp_schedule (d : Display) : (s.setDisp d).schedule = s.schedule := rfl
@[simp] theorem State.setDisp_getV (d : Display) (y : Reg) : (s.setDisp d).getV y = s.getV y := rfl
@[simp] theorem State.setDisp_memByte (d : Display) (c : Nat) : (s.setDisp d).memByte c = s.memByte c := rfl
@[simp] theorem State.setDisp_baseAddr (d : Display) : (s.setDisp d).baseAddr = s.baseAddr := rfl

/-! ## setDirty -/

@[simp] theorem State.setDirty_v (b : Bool) : (s.setDirty b).v = s.v := rfl
@[simp] theorem State.setDirty_i (b : Bool) : (s.setDirty b).i = s.i := rfl
@[simp] theorem State.setDirty_pc (b : Bool) : (s.setDirty b).pc = s.pc := rfl
@[simp] theorem State.setDirty_sp (b : Bool) : (s.setDirty b).sp = s.sp := rfl
@[simp] theorem State.setDirty_stack (b : Bool) : (s.setDirty b).stack = s.stack := rfl
@[simp] theorem State.setDirty_dt (b : Bool) : (s.setDirty b).dt = s.dt := rfl
@[simp] theorem State.setDirty_st (b : Bool) : (s.setDirty b).st = s.st := rfl
@[simp] theorem State.setDirty_mem (b : Bool) : (s.setDirty b).mem = s.mem := rfl
@[simp] theorem State.setDirty_disp (b : Bool) : (s.setDirty b).disp = s.disp := rfl
@[simp] theorem State.setDirty_dirty (b : Bool) : (s.setDirty b).dirty = b := rfl
@[simp] theorem State.setDirty_keys (b : Bool) : (s.setDirty b).keys = s.keys := rfl
@[simp] theorem State.setDirty_run (b : Bool) : (s.setDirty b).run = s.run := rfl
@[simp] theorem State.setDirty_params (b : Bool) : (s.setDirty b).params = s.params := rfl
@[simp] theorem State.setDirty_draws (b : Bool) : (s.setDirty b).draws = s.draws := rfl
@[simp] theorem State.setDirty_schedule (b : Bool) : (s.setDirty b).schedule = s.schedule := rfl
@[simp] theorem State.setDirty_getV (b : Bool) (y : Reg) : (s.setDirty b).getV y = s.getV y := rfl
@[simp] theorem State.setDirty_memByte (b : Bool) (c : Nat) : (s.setDirty b).memByte c = s.memByte c := rfl
@[simp] theorem State.setDirty_baseAddr (b : Bool) : (s.setDirty b).baseAddr = s.baseAddr := rfl

/-! ## countDraw -/

@[simp] theorem State.countDraw_v : (s.countDraw).v = s.v := rfl
@[simp] theorem State.countDraw_i : (s.countDraw).i = s.i := rfl
@[simp] theorem State.countDraw_pc : (s.countDraw).pc = s.pc := rfl
@[simp] theorem State.countDraw_sp : (s.countDraw).sp = s.sp := rfl
@[simp] theorem State.countDraw_stack : (s.countDraw).stack = s.stack := rfl
@[simp] theorem State.countDraw_dt : (s.countDraw).dt = s.dt := rfl
@[simp] theorem State.countDraw_st : (s.countDraw).st = s.st := rfl
@[simp] theorem State.countDraw_mem : (s.countDraw).mem = s.mem := rfl
@[simp] theorem State.countDraw_disp : (s.countDraw).disp = s.disp := rfl
@[simp] theorem State.countDraw_dirty : (s.countDraw).dirty = s.dirty := rfl
@[simp] theorem State.countDraw_keys : (s.countDraw).keys = s.keys := rfl
@[simp] theorem State.countDraw_run : (s.countDraw).run = s.run := rfl
@[simp] theorem State.countDraw_params : (s.countDraw).params = s.params := rfl
@[simp] theorem State.countDraw_draws : (s.countDraw).draws = s.draws + 1 := rfl
@[simp] theorem State.countDraw_schedule : (s.countDraw).schedule = s.schedule := rfl
@[simp] theorem State.countDraw_getV (y : Reg) : (s.countDraw).getV y = s.getV y := rfl
@[simp] theorem State.countDraw_memByte (c : Nat) : (s.countDraw).memByte c = s.memByte c := rfl
@[simp] theorem State.countDraw_baseAddr : (s.countDraw).baseAddr = s.baseAddr := rfl

/-! ## setSchedule -/

@[simp] theorem State.setSchedule_v (ts : List Transaction) : (s.setSchedule ts).v = s.v := rfl
@[simp] theorem State.setSchedule_i (ts : List Transaction) : (s.setSchedule ts).i = s.i := rfl
@[simp] theorem State.setSchedule_pc (ts : List Transaction) : (s.setSchedule ts).pc = s.pc := rfl
@[simp] theorem State.setSchedule_sp (ts : List Transaction) : (s.setSchedule ts).sp = s.sp := rfl
@[simp] theorem State.setSchedule_stack (ts : List Transaction) : (s.setSchedule ts).stack = s.stack := rfl
@[simp] theorem State.setSchedule_dt (ts : List Transaction) : (s.setSchedule ts).dt = s.dt := rfl
@[simp] theorem State.setSchedule_st (ts : List Transaction) : (s.setSchedule ts).st = s.st := rfl
@[simp] theorem State.setSchedule_mem (ts : List Transaction) : (s.setSchedule ts).mem = s.mem := rfl
@[simp] theorem State.setSchedule_disp (ts : List Transaction) : (s.setSchedule ts).disp = s.disp := rfl
@[simp] theorem State.setSchedule_dirty (ts : List Transaction) : (s.setSchedule ts).dirty = s.dirty := rfl
@[simp] theorem State.setSchedule_keys (ts : List Transaction) : (s.setSchedule ts).keys = s.keys := rfl
@[simp] theorem State.setSchedule_run (ts : List Transaction) : (s.setSchedule ts).run = s.run := rfl
@[simp] theorem State.setSchedule_params (ts : List Transaction) : (s.setSchedule ts).params = s.params := rfl
@[simp] theorem State.setSchedule_draws (ts : List Transaction) : (s.setSchedule ts).draws = s.draws := rfl
@[simp] theorem State.setSchedule_schedule (ts : List Transaction) : (s.setSchedule ts).schedule = ts := rfl
@[simp] theorem State.setSchedule_getV (ts : List Transaction) (y : Reg) : (s.setSchedule ts).getV y = s.getV y := rfl
@[simp] theorem State.setSchedule_memByte (ts : List Transaction) (c : Nat) : (s.setSchedule ts).memByte c = s.memByte c := rfl
@[simp] theorem State.setSchedule_baseAddr (ts : List Transaction) : (s.setSchedule ts).baseAddr = s.baseAddr := rfl

/-! ## setPc -/

@[simp] theorem State.setPc_v (w : Word) : (s.setPc w).v = s.v := rfl
@[simp] theorem State.setPc_i (w : Word) : (s.setPc w).i = s.i := rfl
@[simp] theorem State.setPc_pc (w : Word) : (s.setPc w).pc = w := rfl
@[simp] theorem State.setPc_sp (w : Word) : (s.setPc w).sp = s.sp := rfl
@[simp] theorem State.setPc_stack (w : Word) : (s.setPc w).stack = s.stack := rfl
@[simp] theorem State.setPc_dt (w : Word) : (s.setPc w).dt = s.dt := rfl
@[simp] theorem State.setPc_st (w : Word) : (s.setPc w).st = s.st := rfl
@[simp] theorem State.setPc_mem (w : Word) : (s.setPc w).mem = s.mem := rfl
@[simp] theorem State.setPc_disp (w : Word) : (s.setPc w).disp = s.disp := rfl
@[simp] theorem State.setPc_dirty (w : Word) : (s.setPc w).dirty = s.dirty := rfl
@[simp] theorem State.setPc_keys (w : Word) : (s.setPc w).keys = s.keys := rfl
@[simp] theorem State.setPc_run (w : Word) : (s.setPc w).run = s.run := rfl
@[simp] theorem State.setPc_params (w : Word) : (s.setPc w).params = s.params := rfl
@[simp] theorem State.setPc_draws (w : Word) : (s.setPc w).draws = s.draws := rfl
@[simp] theorem State.setPc_schedule (w : Word) : (s.setPc w).schedule = s.schedule := rfl
@[simp] theorem State.setPc_getV (w : Word) (y : Reg) : (s.setPc w).getV y = s.getV y := rfl
@[simp] theorem State.setPc_memByte (w : Word) (c : Nat) : (s.setPc w).memByte c = s.memByte c := rfl
@[simp] theorem State.setPc_baseAddr (w : Word) : (s.setPc w).baseAddr = s.baseAddr := rfl

/-! ## advance -/

@[simp] theorem State.advance_v : (s.advance).v = s.v := rfl
@[simp] theorem State.advance_i : (s.advance).i = s.i := rfl
@[simp] theorem State.advance_pc : (s.advance).pc = s.pc + 2 := rfl
@[simp] theorem State.advance_sp : (s.advance).sp = s.sp := rfl
@[simp] theorem State.advance_stack : (s.advance).stack = s.stack := rfl
@[simp] theorem State.advance_dt : (s.advance).dt = s.dt := rfl
@[simp] theorem State.advance_st : (s.advance).st = s.st := rfl
@[simp] theorem State.advance_mem : (s.advance).mem = s.mem := rfl
@[simp] theorem State.advance_disp : (s.advance).disp = s.disp := rfl
@[simp] theorem State.advance_dirty : (s.advance).dirty = s.dirty := rfl
@[simp] theorem State.advance_keys : (s.advance).keys = s.keys := rfl
@[simp] theorem State.advance_run : (s.advance).run = s.run := rfl
@[simp] theorem State.advance_params : (s.advance).params = s.params := rfl
@[simp] theorem State.advance_draws : (s.advance).draws = s.draws := rfl
@[simp] theorem State.advance_schedule : (s.advance).schedule = s.schedule := rfl
@[simp] theorem State.advance_getV (y : Reg) : (s.advance).getV y = s.getV y := rfl
@[simp] theorem State.advance_memByte (c : Nat) : (s.advance).memByte c = s.memByte c := rfl
@[simp] theorem State.advance_baseAddr : (s.advance).baseAddr = s.baseAddr := rfl

/-! ## skipIf -/

@[simp] theorem State.skipIf_v (c : Bool) : (s.skipIf c).v = s.v := rfl
@[simp] theorem State.skipIf_i (c : Bool) : (s.skipIf c).i = s.i := rfl
@[simp] theorem State.skipIf_pc (c : Bool) : (s.skipIf c).pc = if c then s.pc + 4 else s.pc + 2 := rfl
@[simp] theorem State.skipIf_sp (c : Bool) : (s.skipIf c).sp = s.sp := rfl
@[simp] theorem State.skipIf_stack (c : Bool) : (s.skipIf c).stack = s.stack := rfl
@[simp] theorem State.skipIf_dt (c : Bool) : (s.skipIf c).dt = s.dt := rfl
@[simp] theorem State.skipIf_st (c : Bool) : (s.skipIf c).st = s.st := rfl
@[simp] theorem State.skipIf_mem (c : Bool) : (s.skipIf c).mem = s.mem := rfl
@[simp] theorem State.skipIf_disp (c : Bool) : (s.skipIf c).disp = s.disp := rfl
@[simp] theorem State.skipIf_dirty (c : Bool) : (s.skipIf c).dirty = s.dirty := rfl
@[simp] theorem State.skipIf_keys (c : Bool) : (s.skipIf c).keys = s.keys := rfl
@[simp] theorem State.skipIf_run (c : Bool) : (s.skipIf c).run = s.run := rfl
@[simp] theorem State.skipIf_params (c : Bool) : (s.skipIf c).params = s.params := rfl
@[simp] theorem State.skipIf_draws (c : Bool) : (s.skipIf c).draws = s.draws := rfl
@[simp] theorem State.skipIf_schedule (c : Bool) : (s.skipIf c).schedule = s.schedule := rfl
@[simp] theorem State.skipIf_getV (c : Bool) (y : Reg) : (s.skipIf c).getV y = s.getV y := rfl
@[simp] theorem State.skipIf_memByte (c : Bool) (a : Nat) : (s.skipIf c).memByte a = s.memByte a := rfl
@[simp] theorem State.skipIf_baseAddr (c : Bool) : (s.skipIf c).baseAddr = s.baseAddr := rfl

/-! ## Reading registers after a write -/

theorem State.setV_getV (x y : Reg) (b : Byte) : (s.setV x b).getV y = if y = x then b else s.getV y := by
  simp only [State.getV, State.setV, Fin.getElem_fin, Vector.getElem_set, Fin.ext_iff, eq_comm]

@[simp] theorem State.setV_getV_self (x : Reg) (b : Byte) : (s.setV x b).getV x = b := by
  simp [State.setV_getV]

@[simp] theorem State.setV_getV_of_ne (x y : Reg) (b : Byte) (h : y ≠ x) : (s.setV x b).getV y = s.getV y := by
  simp [State.setV_getV, h]

/-- The flag is written last and wins (R13). -/
theorem State.setVFlag_getV (x y : Reg) (b f : Byte) :
    (s.setVFlag x b f).getV y = if y = 0xF then f else if y = x then b else s.getV y := by
  simp only [State.setVFlag, State.setV_getV]

theorem loadRegs_getElem (v : Vector Byte 16) (f : Nat → Byte) (n : Nat) (y : Reg) :
    (loadRegs v f n)[y] = if y.val < n then f y.val else v[y] := by
  induction n with
  | zero => rfl
  | succ n ih =>
    simp only [loadRegs, Fin.getElem_fin, Vector.getElem_setIfInBounds] at ih ⊢
    rw [ih]
    by_cases h : n = y.val
    · simp [h]
    · by_cases h' : y.val < n
      · simp [h, h', Nat.lt_succ_of_lt h']
      · rw [if_neg h, if_neg h', if_neg (by omega)]

theorem State.setVUpTo_getV (x y : Reg) (f : Nat → Byte) :
    (s.setVUpTo x f).getV y = if y ≤ x then f y.val else s.getV y := by
  simp only [State.getV, State.setVUpTo, loadRegs_getElem, Fin.le_def, Nat.lt_succ_iff]

/-! ## Storing bytes changes memory alone -/

@[simp] theorem State.writeBytes_v (a : Nat) (bs : List Byte) : (s.writeBytes a bs).v = s.v := by
  induction bs generalizing s a with
  | nil => rfl
  | cons b bs ih => exact ih (s.putByte a b) (a + 1)

@[simp] theorem State.writeBytes_i (a : Nat) (bs : List Byte) : (s.writeBytes a bs).i = s.i := by
  induction bs generalizing s a with
  | nil => rfl
  | cons b bs ih => exact ih (s.putByte a b) (a + 1)

@[simp] theorem State.writeBytes_pc (a : Nat) (bs : List Byte) : (s.writeBytes a bs).pc = s.pc := by
  induction bs generalizing s a with
  | nil => rfl
  | cons b bs ih => exact ih (s.putByte a b) (a + 1)

@[simp] theorem State.writeBytes_sp (a : Nat) (bs : List Byte) : (s.writeBytes a bs).sp = s.sp := by
  induction bs generalizing s a with
  | nil => rfl
  | cons b bs ih => exact ih (s.putByte a b) (a + 1)

@[simp] theorem State.writeBytes_stack (a : Nat) (bs : List Byte) : (s.writeBytes a bs).stack = s.stack := by
  induction bs generalizing s a with
  | nil => rfl
  | cons b bs ih => exact ih (s.putByte a b) (a + 1)

@[simp] theorem State.writeBytes_dt (a : Nat) (bs : List Byte) : (s.writeBytes a bs).dt = s.dt := by
  induction bs generalizing s a with
  | nil => rfl
  | cons b bs ih => exact ih (s.putByte a b) (a + 1)

@[simp] theorem State.writeBytes_st (a : Nat) (bs : List Byte) : (s.writeBytes a bs).st = s.st := by
  induction bs generalizing s a with
  | nil => rfl
  | cons b bs ih => exact ih (s.putByte a b) (a + 1)

@[simp] theorem State.writeBytes_disp (a : Nat) (bs : List Byte) : (s.writeBytes a bs).disp = s.disp := by
  induction bs generalizing s a with
  | nil => rfl
  | cons b bs ih => exact ih (s.putByte a b) (a + 1)

@[simp] theorem State.writeBytes_dirty (a : Nat) (bs : List Byte) : (s.writeBytes a bs).dirty = s.dirty := by
  induction bs generalizing s a with
  | nil => rfl
  | cons b bs ih => exact ih (s.putByte a b) (a + 1)

@[simp] theorem State.writeBytes_keys (a : Nat) (bs : List Byte) : (s.writeBytes a bs).keys = s.keys := by
  induction bs generalizing s a with
  | nil => rfl
  | cons b bs ih => exact ih (s.putByte a b) (a + 1)

@[simp] theorem State.writeBytes_run (a : Nat) (bs : List Byte) : (s.writeBytes a bs).run = s.run := by
  induction bs generalizing s a with
  | nil => rfl
  | cons b bs ih => exact ih (s.putByte a b) (a + 1)

@[simp] theorem State.writeBytes_params (a : Nat) (bs : List Byte) : (s.writeBytes a bs).params = s.params := by
  induction bs generalizing s a with
  | nil => rfl
  | cons b bs ih => exact ih (s.putByte a b) (a + 1)

@[simp] theorem State.writeBytes_draws (a : Nat) (bs : List Byte) : (s.writeBytes a bs).draws = s.draws := by
  induction bs generalizing s a with
  | nil => rfl
  | cons b bs ih => exact ih (s.putByte a b) (a + 1)

@[simp] theorem State.writeBytes_schedule (a : Nat) (bs : List Byte) : (s.writeBytes a bs).schedule = s.schedule := by
  induction bs generalizing s a with
  | nil => rfl
  | cons b bs ih => exact ih (s.putByte a b) (a + 1)

@[simp] theorem State.writeBytes_getV (a : Nat) (bs : List Byte) (y : Reg) :
    (s.writeBytes a bs).getV y = s.getV y := by
  simp [State.getV]

@[simp] theorem State.writeBytes_baseAddr (a : Nat) (bs : List Byte) :
    (s.writeBytes a bs).baseAddr = s.baseAddr := by
  simp [State.baseAddr]

/-- A store is an update of the one field `mem`. -/
theorem State.writeBytes_eq (a : Nat) (bs : List Byte) :
    s.writeBytes a bs = { s with mem := (s.writeBytes a bs).mem } := by
  induction bs generalizing s a with
  | nil => rfl
  | cons b bs ih => exact ih (s.putByte a b) (a + 1)

end Sys2Proof.Machine
end

