-- ==== Sys2Proof/Laws/Memory.lean ====
section
/-! SUPPORT. Memory: a read after a write, the canonical form and that every operation keeps it. -/

namespace Sys2Proof.Machine

variable (p : Params) (m : Memory)

/-! ## Lists of cells -/

theorem Memory.find_insertCell (a : Nat) (b : Byte) (hm : ∀ c ∈ m, c.1 ≠ a) (a' : Nat) :
    Memory.find (Memory.insertCell m a b) a' = if a' = a then some b else Memory.find m a' := by
  induction m with
  | nil => simp [Memory.insertCell, Memory.find, eq_comm]
  | cons c m ih =>
    have hc : c.1 ≠ a := hm c (by simp)
    have ih := ih fun d hd => hm d (by simp [hd])
    by_cases h : a < c.1
    · simp [Memory.insertCell, h, Memory.find, eq_comm]
    · by_cases h' : a' = a
      · subst h'; simp [Memory.insertCell, h, Memory.find, ih, hc]
      · simp only [Memory.insertCell, h, if_false, Memory.find, ih, h']

theorem Memory.find_removeCell (a a' : Nat) :
    Memory.find (Memory.removeCell m a) a' = if a' = a then none else Memory.find m a' := by
  induction m with
  | nil => simp [Memory.removeCell, Memory.find]
  | cons c m ih =>
    simp only [Memory.removeCell] at ih ⊢
    by_cases hc : c.1 = a
    · by_cases h' : a' = a
      · subst h'; simpa [hc] using ih
      · have : ¬ a = a' := fun h => h' h.symm
        simp [hc, ih, h', Memory.find, this]
    · by_cases h' : a' = a
      · subst h'; simp [hc, Memory.find, ih]
      · simp [hc, Memory.find, ih, h']

theorem Memory.mem_removeCell (a : Nat) (c : Host.Cell) : c ∈ Memory.removeCell m a ↔ c ∈ m ∧ c.1 ≠ a := by
  simp [Memory.removeCell]

theorem Memory.mem_insertCell (a : Nat) (b : Byte) (c : Host.Cell) :
    c ∈ Memory.insertCell m a b ↔ c = (a, b) ∨ c ∈ m := by
  induction m with
  | nil => simp [Memory.insertCell]
  | cons d m ih =>
    by_cases h : a < d.1
    · simp [Memory.insertCell, h]
    · simp only [Memory.insertCell, h, if_false, List.mem_cons, ih]
      tauto

theorem Memory.insertCell_pairwise (a : Nat) (b : Byte) (hm : ∀ c ∈ m, c.1 ≠ a)
    (h : m.Pairwise fun c d => c.1 < d.1) : (Memory.insertCell m a b).Pairwise fun c d => c.1 < d.1 := by
  induction m with
  | nil => simp [Memory.insertCell]
  | cons d m ih =>
    have hd : d.1 ≠ a := hm d (by simp)
    obtain ⟨hlt, hp⟩ := List.pairwise_cons.1 h
    by_cases had : a < d.1
    · simp only [Memory.insertCell, had, if_true, List.pairwise_cons, List.mem_cons]
      refine ⟨?_, hlt, hp⟩
      rintro c (rfl | hc)
      · exact had
      · exact lt_trans had (hlt c hc)
    · simp only [Memory.insertCell, had, if_false, List.pairwise_cons]
      refine ⟨fun c hc => ?_, ih (fun c hc => hm c (by simp [hc])) hp⟩
      rcases (Memory.mem_insertCell m a b c).1 hc with rfl | hc
      · show d.1 < a
        omega
      · exact hlt c hc

/-! ## Writing a byte -/

/-- A store keeps the canonical form. -/
theorem Memory.write_wf (a : Nat) (b : Byte) (ha : a < 4096) (h : Memory.wf p m) :
    Memory.wf p (Memory.write p m a b) := by
  have hr : Memory.wf p (Memory.removeCell m a) :=
    ⟨h.1.filter _, fun c hc => h.2 c ((Memory.mem_removeCell m a c).1 hc).1⟩
  by_cases hb : b = background p a
  · simpa [Memory.write, hb] using hr
  · have hne : ∀ c ∈ Memory.removeCell m a, c.1 ≠ a := fun c hc => ((Memory.mem_removeCell m a c).1 hc).2
    simp only [Memory.write, hb, if_false]
    refine ⟨Memory.insertCell_pairwise _ a b hne hr.1, fun c hc => ?_⟩
    rcases (Memory.mem_insertCell _ a b c).1 hc with rfl | hc
    · exact ⟨ha, hb⟩
    · exact hr.2 c hc

/-- Reading what was written, at the same address and at every other; no canonical form is needed. -/
theorem Memory.read_write (a a' : Nat) (b : Byte) :
    (Memory.find (Memory.write p m a b) a').getD (background p a') =
      if a' = a then b else (Memory.find m a').getD (background p a') := by
  by_cases hb : b = background p a
  · by_cases h' : a' = a
    · subst h'; simp [Memory.write, hb, Memory.find_removeCell]
    · simp [Memory.write, hb, Memory.find_removeCell, h']
  · have hne : ∀ c ∈ Memory.removeCell m a, c.1 ≠ a := fun c hc => ((Memory.mem_removeCell m a c).1 hc).2
    simp only [Memory.write, hb, if_false, Memory.find_insertCell _ a b hne, Memory.find_removeCell]
    by_cases h' : a' = a <;> simp [h']

/-! ## Memory of the state -/

/-- An address that is not listed reads as the reset contents. -/
theorem State.memByte_of_find_none (s : State) (a : Nat) (h : Memory.find s.mem a = none) :
    s.memByte a = background s.params a := by
  simp [State.memByte, h]

/-- One byte stored keeps the canonical form. -/
theorem State.putByte_wf (s : State) (a : Nat) (b : Byte) (ha : a < 4096) (h : Memory.wf s.params s.mem) :
    Memory.wf s.params (s.putByte a b).mem :=
  Memory.write_wf s.params s.mem a b ha h

/-- Bytes stored below 4096 keep the canonical form. -/
theorem State.writeBytes_wf (s : State) (a : Nat) (bs : List Byte) (ha : a + bs.length ≤ 4096)
    (h : Memory.wf s.params s.mem) : Memory.wf s.params (s.writeBytes a bs).mem := by
  induction bs generalizing s a with
  | nil => exact h
  | cons b bs ih =>
    simp only [List.length_cons] at ha
    exact ih (s.putByte a b) (a + 1) (by omega) (s.putByte_wf a b (by omega) h)

/-! ## Memory at reset (R30, R45) -/

/-- Nothing is listed at reset: every address reads as the reset contents. -/
@[simp] theorem State.resetWith_memByte (a : Nat) : (State.resetWith p).memByte a = background p a := rfl

theorem background_font (k : Nat) : background p (p.fontBase.val + k) = fontBytes.getD k 0 := by
  simp [background]

theorem background_elsewhere (a : Nat) (h : a < p.fontBase.val ∨ p.fontBase.val + 80 ≤ a) : background p a = 0 := by
  have hl : fontBytes.length = 80 := by decide
  unfold background
  split
  · rfl
  · rw [List.getD_eq_default _ _ (by omega)]

/-- Memory at reset is canonical. -/
theorem State.reset_mem_wf : Memory.wf State.reset.params State.reset.mem := by
  refine ⟨List.Pairwise.nil, ?_⟩
  rintro c ⟨⟩

/-- What stored bytes read as, and that an address below them reads as before. -/
theorem State.writeBytes_memByte_below (s : State) (a : Nat) (bs : List Byte) (c : Nat) (h : c < a) :
    (s.writeBytes a bs).memByte c = s.memByte c := by
  induction bs generalizing s a with
  | nil => rfl
  | cons b bs ih =>
    refine (ih (s.putByte a b) (a + 1) (by omega)).trans ?_
    simp only [State.memByte, State.putByte, Memory.read_write]
    rw [if_neg (by omega)]

/-- The byte stored at `a + k` is the `k`-th of the list; past the list every address reads as before. -/
theorem State.writeBytes_memByte_at (s : State) (a : Nat) (bs : List Byte) (k : Nat) :
    (s.writeBytes a bs).memByte (a + k) = bs.getD k (s.memByte (a + k)) := by
  induction bs generalizing s a k with
  | nil => simp [State.writeBytes]
  | cons b bs ih =>
    cases k with
    | zero =>
      refine (State.writeBytes_memByte_below (s.putByte a b) (a + 1) bs a (by omega)).trans ?_
      simp [State.memByte, State.putByte, Memory.read_write]
    | succ k =>
      have h := ih (s.putByte a b) (a + 1) k
      rw [show a + 1 + k = a + (k + 1) by omega] at h
      refine h.trans ?_
      have : (s.putByte a b).memByte (a + (k + 1)) = s.memByte (a + (k + 1)) := by
        simp only [State.memByte, State.putByte, Memory.read_write]
        rw [if_neg (by omega)]
      simp [this]

/-- Outside the stored bytes every address reads as before. -/
theorem State.writeBytes_memByte_outside (s : State) (a : Nat) (bs : List Byte) (c : Nat)
    (h : c < a ∨ a + bs.length ≤ c) : (s.writeBytes a bs).memByte c = s.memByte c := by
  rcases h with h | h
  · exact s.writeBytes_memByte_below a bs c h
  · obtain ⟨k, rfl⟩ := Nat.exists_eq_add_of_le (show a ≤ c by omega)
    rw [State.writeBytes_memByte_at, List.getD_eq_default _ _ (by omega)]

end Sys2Proof.Machine
end

