-- ==== Sys2Proof/Laws/Ops.lean ====
section
/-! SUPPORT. One lemma per shared operation, saying what it answers; proofs cite these and do not unfold the operation. -/

namespace Sys2Proof.Machine

variable (s : State)

/-! ## Addresses and other operands -/

theorem State.baseAddr_eq : s.baseAddr = s.i.toNat % 4096 := by
  simp only [State.baseAddr, BitVec.toNat_and]
  exact Nat.and_two_pow_sub_one_eq_mod s.i.toNat 12

theorem State.baseAddr_lt : s.baseAddr < 4096 := by
  rw [State.baseAddr_eq]; exact Nat.mod_lt _ (by decide)

theorem pastEnd_eq_true_iff (b count : Nat) : pastEnd b count = true ↔ 4096 < b + count := by
  simp [pastEnd]

theorem pastEnd_eq_false_iff (b count : Nat) : pastEnd b count = false ↔ b + count ≤ 4096 := by
  simp [pastEnd]

@[simp] theorem zext16_toNat (nnn : Addr12) : (zext16 nnn).toNat = nnn.toNat := by
  have := nnn.isLt
  simp only [zext16, BitVec.toNat_setWidth]
  omega

@[simp] theorem State.jumpSum_toNat (nnn : Addr12) : (s.jumpSum nnn).toNat = nnn.toNat + (s.getV 0).toNat := by
  have h1 := nnn.isLt
  have h2 := (s.getV 0).isLt
  simp only [State.jumpSum, BitVec.toNat_ofNat]
  omega

@[simp] theorem State.indexSum_toNat (x : Reg) :
    (s.indexSum x).toNat = (s.i.toNat + (s.getV x).toNat) % 65536 := by
  simp [State.indexSum]

@[simp] theorem State.glyphAddr_toNat (x : Reg) :
    (s.glyphAddr x).toNat = s.params.fontBase.val + 5 * (s.getV x).toNat := by
  have h1 := s.params.fontBase.isLt
  have h2 := (s.getV x).isLt
  simp only [State.glyphAddr, BitVec.toNat_ofNat]
  omega

theorem State.keyNumber_val (x : Reg) : (s.keyNumber x).val = (s.getV x).toNat % 16 := by
  simp [State.keyNumber]

@[simp] theorem keyCode_toNat (k : Fin 16) : (keyCode k).toNat = k.val := by
  have := k.isLt
  simp only [keyCode, BitVec.toNat_ofNat]
  omega

/-! ## Results and flags -/

theorem flagByte_toNat (c : Bool) : (flagByte c).toNat = if c then 1 else 0 := by
  cases c <;> rfl

theorem flagByte_eq_one_iff (c : Bool) : flagByte c = 1#8 ↔ c = true := by
  cases c <;> decide

theorem flagByte_eq_zero_iff (c : Bool) : flagByte c = 0#8 ↔ c = false := by
  cases c <;> decide

theorem addResult_toNat (a b : Byte) : (addResult a b).toNat = (a.toNat + b.toNat) % 256 := by
  simp [addResult]

theorem subResult_toNat (a b : Byte) : (subResult a b).toNat = (a.toNat + 256 - b.toNat) % 256 := by
  have h1 := a.isLt
  have h2 := b.isLt
  simp only [subResult, BitVec.toNat_ofInt]
  omega

theorem shrResult_toNat (a : Byte) : (shrResult a).toNat = a.toNat / 2 := by
  simp [shrResult, Nat.shiftRight_eq_div_pow]

theorem shlResult_toNat (a : Byte) : (shlResult a).toNat = a.toNat * 2 % 256 := by
  simp [shlResult, Nat.shiftLeft_eq]

theorem shrFlag_toNat (a : Byte) : (shrFlag a).toNat = a.toNat % 2 := by
  revert a; decide

theorem shlFlag_toNat (a : Byte) : (shlFlag a).toNat = a.toNat / 128 := by
  revert a; decide

/-! ## The stack (R16) -/

theorem State.push_overflow (a : Word) (h : s.sp.val = 16) : s.push a = .error .stackOverflow := by
  simp [State.push, h]

theorem State.push_ok (a : Word) (j : Fin 16) (h : s.sp.val = j.val) :
    s.push a = .ok { s with stack := s.stack.set j a, sp := j.succ } := by
  have hj := j.isLt
  simp only [State.push, h, hj, dif_pos]
  rfl

theorem State.pop_underflow (h : s.sp.val = 0) : s.pop = .error .stackUnderflow := by
  simp [State.pop, h]

theorem State.pop_ok (j : Fin 16) (h : s.sp.val = j.val + 1) :
    s.pop = .ok (s.stack[j], { s with sp := j.castSucc }) := by
  have hj := j.isLt
  have h0 : ¬ s.sp.val = 0 := by omega
  have h1 : s.sp.val - 1 = j.val := by omega
  simp only [State.pop, h0, dif_neg, not_false_eq_true, h1]
  rfl

/-! ## Bytes of memory and registers -/

theorem State.readBytes_length (a n : Nat) : (s.readBytes a n).length = n := by
  simp [State.readBytes]

theorem State.readBytes_getElem (a n k : Nat) (h : k < (s.readBytes a n).length) :
    (s.readBytes a n)[k] = s.memByte (a + k) := by
  simp [State.readBytes]

theorem State.vUpTo_length (x : Reg) : (s.vUpTo x).length = x.val + 1 := by
  have := x.isLt
  simp only [State.vUpTo, List.length_take, Vector.length_toList]
  omega

theorem State.vUpTo_getD (x k : Reg) (h : k ≤ x) (d : Byte) : (s.vUpTo x).getD k.val d = s.getV k := by
  have hk : k.val < x.val + 1 := Nat.lt_succ_of_le (Fin.le_def.1 h)
  simp [State.vUpTo, State.getV, List.getD_eq_getElem?_getD, hk]

theorem State.memRead_ok (a : Nat) (h : a < 4096) : s.memRead a = .ok (s.memByte a) := by
  simp [State.memRead, h]

theorem State.memRead_error (a : Nat) (h : 4096 ≤ a) : s.memRead a = .error (.addressOutOfRange a) := by
  simp [State.memRead, h]

/-! ## Keys and timers -/

/-- The lowest pressed key: pressed, with every lower one released (R157). -/
theorem lowestKey_eq_some (keys : Vector Bool 16) (k : Fin 16) (hk : keys[k] = true)
    (hlow : ∀ j : Fin 16, j < k → keys[j] = false) : lowestKey keys = some k := by
  obtain ⟨m, hm⟩ : ∃ m, lowestKey keys = some m := by
    rw [← Option.isSome_iff_exists, lowestKey, List.find?_isSome]
    exact ⟨k, List.mem_finRange k, hk⟩
  have hp : keys[m] = true := by
    have := List.find?_some hm
    simpa using this
  obtain ⟨_, as, bs, hl, hno⟩ := List.find?_eq_some_iff_append.1 hm
  have hmk : m ≤ k := by
    by_contra hlt
    rw [not_le] at hlt
    have hmem : k ∈ as ++ m :: bs := hl ▸ List.mem_finRange k
    have hs : (as ++ m :: bs).Pairwise (· < ·) := hl ▸ List.pairwise_lt_finRange 16
    rcases List.mem_append.1 hmem with h | h
    · simpa [hk] using hno k h
    · rcases List.mem_cons.1 h with h | h
      · exact absurd h (ne_of_lt hlt)
      · have := (List.pairwise_cons.1 (List.pairwise_append.1 hs).2.1).1 k h
        exact absurd this (not_lt.2 hlt.le)
  rcases hmk.lt_or_eq with h | h
  · rw [hlow m h] at hp; cases hp
  · rw [hm, h]

theorem lowestKey_eq_none (keys : Vector Bool 16) (h : ∀ k : Fin 16, keys[k] = false) : lowestKey keys = none := by
  simp only [lowestKey, List.find?_eq_none]
  intro k _
  simp [h k]

@[simp] theorem latchOf_getElem (k : Word) (j : Fin 16) : (latchOf k)[j] = k.getLsbD j.val := by
  obtain ⟨j, hj⟩ := j
  interval_cases j <;> rfl

theorem countDown_toNat (b : Byte) : (countDown b).toNat = b.toNat - 1 := by
  revert b; decide

theorem State.soundActive_iff : s.soundActive = true ↔ 0 < s.st.toNat := decide_eq_true_iff

/-! ## The driver's transactions -/

theorem State.load_error (bytes : List Byte) (h : 3584 < bytes.length) :
    s.load bytes = .error (.programTooLarge bytes.length) := by
  simp [State.load, h]

theorem State.load_ok (bytes : List Byte) (h : bytes.length ≤ 3584) : s.load bytes = .ok (s.writeBytes 0x200 bytes) := by
  simp [State.load, h]

end Sys2Proof.Machine
end

