-- ==== Sys2Proof/Laws/Cycle.lean ====
section
/-! SUPPORT. What a step can do, said once: the fetch, the `step` transaction, the step, and the instructions that can fault. -/

namespace Sys2Proof.Machine

variable {s t : State}

/-! ## Fetch and decode (R92, R93) -/

theorem State.fetch_ok (h : s.pc.toNat ≤ 4094) :
    s.fetch = .ok (wordOfBytes (s.memByte s.pc.toNat) (s.memByte (s.pc.toNat + 1))) := by
  simp only [State.fetch, s.memRead_ok _ (show s.pc.toNat < 4096 by omega),
    s.memRead_ok _ (show s.pc.toNat + 1 < 4096 by omega)]

theorem State.fetch_error_4095 (h : s.pc.toNat = 4095) : s.fetch = .error (.addressOutOfRange 4096) := by
  simp only [State.fetch, h, s.memRead_ok 4095 (by omega), s.memRead_error (4095 + 1) (by omega)]

theorem State.fetch_error (h : 4096 ≤ s.pc.toNat) : s.fetch = .error (.addressOutOfRange s.pc.toNat) := by
  simp only [State.fetch, s.memRead_error _ h]

/-- A fetch that succeeds was at 4094 or below, and answered the two bytes there. -/
theorem State.fetch_eq_ok {op : Word} (h : s.fetch = .ok op) :
    s.pc.toNat ≤ 4094 ∧ op = wordOfBytes (s.memByte s.pc.toNat) (s.memByte (s.pc.toNat + 1)) := by
  rcases Nat.lt_trichotomy s.pc.toNat 4095 with hlt | heq | hgt
  · have hle : s.pc.toNat ≤ 4094 := by omega
    rw [State.fetch_ok hle] at h
    exact ⟨hle, (Except.ok.inj h).symm⟩
  · rw [State.fetch_error_4095 heq] at h; cases h
  · rw [State.fetch_error (show 4096 ≤ s.pc.toNat by omega)] at h; cases h

/-- A `PC` above 4094 cannot be fetched from. -/
theorem State.fetch_above (h : 4094 < s.pc.toNat) : ∃ a, s.fetch = .error (.addressOutOfRange a) := by
  rcases Nat.lt_or_ge s.pc.toNat 4096 with hlt | hge
  · exact ⟨4096, State.fetch_error_4095 (by omega)⟩
  · exact ⟨_, State.fetch_error hge⟩

theorem State.fetchInstr_eq_ok {i : Instr} (h : s.fetchInstr = .ok i) :
    ∃ op, s.fetch = .ok op ∧ decodeWord op = some i := by
  unfold State.fetchInstr at h
  split at h
  · cases h
  · next op hop =>
    unfold decodeFetched at h
    split at h
    · next j hj => exact ⟨op, hop, by rw [hj, Except.ok.inj h]⟩
    · cases h

/-! ## The step -/

theorem step_of_no_schedule (h : s.schedule = []) : step s = stepTransaction s := by
  simp only [step, h]

theorem step_of_schedule {a : Transaction} {ts : List Transaction} (h : s.schedule = a :: ts) :
    step s = transact a (s.setSchedule ts) := by
  simp only [step, h]

theorem stepTransaction_waiting {r : Reg} (h : s.run = .waitingForKey r) :
    stepTransaction s = .next (s.keyWaitPoll r) := by
  simp only [stepTransaction, h]

theorem stepTransaction_fetch_error {f : Fault} (h : s.run = .running) (hf : s.fetch = .error f) :
    stepTransaction s = .fault f := by
  simp only [stepTransaction, h, State.fetchInstr, hf, raiseFault]

theorem stepTransaction_illegal {op : Word} (h : s.run = .running) (hf : s.fetch = .ok op)
    (hd : decodeWord op = none) : stepTransaction s = .fault (.illegalInstruction op) := by
  simp only [stepTransaction, h, State.fetchInstr, hf, decodeFetched, hd, raiseFault]

theorem stepTransaction_exec {op : Word} {i : Instr} (h : s.run = .running) (hf : s.fetch = .ok op)
    (hd : decodeWord op = some i) : stepTransaction s = exec i s := by
  simp only [stepTransaction, h, State.fetchInstr, hf, decodeFetched, hd]

/-- Everything a `step` transaction that goes on can have been: a poll of the key wait, or an instruction fetched at 4094 or
below and decoded. -/
theorem stepTransaction_next (h : stepTransaction s = .next t) :
    (∃ r, s.run = .waitingForKey r ∧ t = s.keyWaitPoll r) ∨
    (s.run = .running ∧ s.pc.toNat ≤ 4094 ∧ ∃ i, exec i s = .next t) := by
  cases hr : s.run with
  | waitingForKey r =>
    rw [stepTransaction_waiting hr] at h
    exact .inl ⟨r, rfl, (Host.Outcome.next.inj h).symm⟩
  | running =>
    simp only [stepTransaction, hr] at h
    split at h
    · cases h
    · next i hi =>
      obtain ⟨op, hop, -⟩ := State.fetchInstr_eq_ok hi
      exact .inr ⟨rfl, (State.fetch_eq_ok hop).1, i, h⟩

/-- A poll either changes nothing or ends the wait with some key. -/
theorem State.keyWaitPoll_cases (s : State) (r : Reg) :
    s.keyWaitPoll r = s ∨ ∃ k, s.keyWaitPoll r = ((s.setV r (keyCode k)).setRun .running).advance := by
  unfold State.keyWaitPoll
  split
  · next k _ => exact .inr ⟨k, rfl⟩
  · exact .inl rfl

/-- Everything a transaction of the driver that goes on can have done. -/
theorem hostMove_next {m : HostMove} (h : hostMove m s = .next t) :
    (m = .reset ∧ t = s.resetMove) ∨
    (∃ bytes, m = .load bytes ∧ bytes.length ≤ 3584 ∧ t = s.writeBytes 0x200 bytes) ∨
    (∃ k, m = .setKeys k ∧ t = s.latch k) ∨ (m = .tick ∧ t = s.tick) ∨ (m = .clearDirty ∧ t = s.clearDirty) := by
  cases m with
  | reset => exact .inl ⟨rfl, (Host.Outcome.next.inj h).symm⟩
  | load bytes =>
    rcases Nat.lt_or_ge 3584 bytes.length with hl | hl
    · simp only [hostMove, s.load_error bytes hl, raiseFault] at h; cases h
    · simp only [hostMove, s.load_ok bytes hl] at h
      exact .inr (.inl ⟨bytes, rfl, hl, (Host.Outcome.next.inj h).symm⟩)
  | setKeys k => exact .inr (.inr (.inl ⟨k, rfl, (Host.Outcome.next.inj h).symm⟩))
  | tick => exact .inr (.inr (.inr (.inl ⟨rfl, (Host.Outcome.next.inj h).symm⟩)))
  | clearDirty => exact .inr (.inr (.inr (.inr ⟨rfl, (Host.Outcome.next.inj h).symm⟩)))

/-! ## The schedule: no transaction reads it or writes it -/

theorem State.writeBytes_setSchedule (s : State) (a : Nat) (bs : List Byte) (ts : List Transaction) :
    (s.setSchedule ts).writeBytes a bs = (s.writeBytes a bs).setSchedule ts := by
  induction bs generalizing s a with
  | nil => rfl
  | cons b bs ih => exact ih (s.putByte a b) (a + 1)

/-- The outcome with the schedule of its next state replaced. -/
def outcomeSetSchedule (ts : List Transaction) (o : Host.Outcome State Fault Refusal) : Host.Outcome State Fault Refusal :=
  match o with
  | .next t => .next (t.setSchedule ts)
  | .fault f => .fault f
  | .refused r => .refused r

theorem exec_setSchedule (i : Instr) (s : State) (ts : List Transaction) :
    exec i (s.setSchedule ts) = outcomeSetSchedule ts (exec i s) := by
  cases i
  case ret =>
    show execRet _ = outcomeSetSchedule ts (execRet s)
    unfold execRet State.pop
    by_cases h : s.sp.val = 0 <;> simp [h] <;> rfl
  case call nnn =>
    show execCall nnn _ = outcomeSetSchedule ts (execCall nnn s)
    unfold execCall State.push
    by_cases h : s.sp.val < 16 <;> simp [h] <;> rfl
  case drw x y n =>
    show execDrw x y n _ = outcomeSetSchedule ts (execDrw x y n s)
    unfold execDrw
    rw [State.setSchedule_baseAddr]
    split <;> rfl
  case ldB x =>
    show execLdB x _ = outcomeSetSchedule ts (execLdB x s)
    unfold execLdB
    rw [State.setSchedule_baseAddr, State.writeBytes_setSchedule]
    split <;> rfl
  case ldMemVx x =>
    show execLdMemVx x _ = outcomeSetSchedule ts (execLdMemVx x s)
    unfold execLdMemVx
    rw [State.setSchedule_baseAddr, State.writeBytes_setSchedule]
    split <;> rfl
  case ldVxMem x =>
    show execLdVxMem x _ = outcomeSetSchedule ts (execLdVxMem x s)
    unfold execLdVxMem
    rw [State.setSchedule_baseAddr]
    split <;> rfl
  all_goals rfl

theorem stepTransaction_setSchedule (s : State) (ts : List Transaction) :
    stepTransaction (s.setSchedule ts) = outcomeSetSchedule ts (stepTransaction s) := by
  unfold stepTransaction
  rw [State.setSchedule_run, show (s.setSchedule ts).fetchInstr = s.fetchInstr from rfl]
  cases s.run with
  | waitingForKey r =>
    simp only [State.keyWaitPoll, State.setSchedule_keys]
    cases lowestKey s.keys <;> rfl
  | running =>
    cases s.fetchInstr with
    | error f => rfl
    | ok i => exact exec_setSchedule i s ts

/-- A transaction answers the same whatever is scheduled after it, and leaves that as it is. -/
theorem transact_setSchedule (a : Transaction) (s : State) (ts : List Transaction) :
    transact a (s.setSchedule ts) = outcomeSetSchedule ts (transact a s) := by
  cases a with
  | step => exact stepTransaction_setSchedule s ts
  | host m =>
    cases m with
    | load bytes =>
      rcases Nat.lt_or_ge 3584 bytes.length with hl | hl
      · simp only [transact, hostMove, State.load_error _ bytes hl]; rfl
      · simp only [transact, hostMove, State.load_ok _ bytes hl, State.writeBytes_setSchedule]; rfl
    | _ => rfl

/-! ## The instructions that can fault, on the states where they go on -/

theorem execRet_ok (j : Fin 16) (h : s.sp.val = j.val + 1) :
    execRet s = .next { s with sp := j.castSucc, pc := s.stack[j] } := by
  simp only [execRet, s.pop_ok j h]; rfl

theorem execCall_ok (nnn : Addr12) (j : Fin 16) (h : s.sp.val = j.val) :
    execCall nnn s = .next { s with stack := s.stack.set j (s.pc + 2), sp := j.succ, pc := zext16 nnn } := by
  simp only [execCall, s.push_ok _ j h]; rfl

theorem execDrw_ok (x y : Reg) (n : Nibble) (h : s.baseAddr + n.toNat ≤ 4096) : execDrw x y n s =
    .next (((s.setDisp (s.drawn x y n).1).setV 0xF (flagByte (s.drawn x y n).2)).setDirty true).advance := by
  simp [execDrw, (pastEnd_eq_false_iff _ _).2 h]

theorem execLdB_ok (x : Reg) (h : s.baseAddr + 3 ≤ 4096) :
    execLdB x s = .next (s.writeBytes s.baseAddr (bcdDigits (s.getV x))).advance := by
  simp [execLdB, (pastEnd_eq_false_iff _ _).2 h]

theorem execLdMemVx_ok (x : Reg) (h : s.baseAddr + (x.val + 1) ≤ 4096) :
    execLdMemVx x s = .next (s.writeBytes s.baseAddr (s.vUpTo x)).advance := by
  simp [execLdMemVx, (pastEnd_eq_false_iff _ _).2 h]

theorem execLdVxMem_ok (x : Reg) (h : s.baseAddr + (x.val + 1) ≤ 4096) :
    execLdVxMem x s = .next (s.setVUpTo x fun k => s.memByte (s.baseAddr + k)).advance := by
  simp [execLdVxMem, (pastEnd_eq_false_iff _ _).2 h]

/-! ## The same instructions, from the next state back -/

theorem execRet_next (h : execRet s = .next t) :
    ∃ j : Fin 16, s.sp.val = j.val + 1 ∧ t = { s with sp := j.castSucc, pc := s.stack[j] } := by
  have hs := s.sp.isLt
  rcases Nat.eq_zero_or_pos s.sp.val with h0 | h0
  · simp only [execRet, s.pop_underflow h0, raiseFault] at h; cases h
  · obtain ⟨j, hj⟩ : ∃ j : Fin 16, s.sp.val = j.val + 1 := ⟨⟨s.sp.val - 1, by omega⟩, by simp only; omega⟩
    exact ⟨j, hj, Host.Outcome.next.inj (h.symm.trans (execRet_ok j hj))⟩

theorem execCall_next {nnn : Addr12} (h : execCall nnn s = .next t) :
    ∃ j : Fin 16, s.sp.val = j.val ∧
      t = { s with stack := s.stack.set j (s.pc + 2), sp := j.succ, pc := zext16 nnn } := by
  have hs := s.sp.isLt
  rcases Nat.lt_or_ge s.sp.val 16 with h0 | h0
  · exact ⟨⟨s.sp.val, h0⟩, rfl, Host.Outcome.next.inj (h.symm.trans (execCall_ok nnn ⟨s.sp.val, h0⟩ rfl))⟩
  · simp only [execCall, s.push_overflow _ (show s.sp.val = 16 by omega), raiseFault] at h; cases h

theorem execDrw_next {x y : Reg} {n : Nibble} (h : execDrw x y n s = .next t) :
    s.baseAddr + n.toNat ≤ 4096 ∧
      t = (((s.setDisp (s.drawn x y n).1).setV 0xF (flagByte (s.drawn x y n).2)).setDirty true).advance := by
  unfold execDrw at h
  split at h
  · cases h
  · next hb => exact ⟨(pastEnd_eq_false_iff _ _).1 (by simpa using hb), (Host.Outcome.next.inj h).symm⟩

theorem execLdB_next {x : Reg} (h : execLdB x s = .next t) :
    s.baseAddr + 3 ≤ 4096 ∧ t = (s.writeBytes s.baseAddr (bcdDigits (s.getV x))).advance := by
  unfold execLdB at h
  split at h
  · cases h
  · next hb => exact ⟨(pastEnd_eq_false_iff _ _).1 (by simpa using hb), (Host.Outcome.next.inj h).symm⟩

theorem execLdMemVx_next {x : Reg} (h : execLdMemVx x s = .next t) :
    s.baseAddr + (x.val + 1) ≤ 4096 ∧ t = (s.writeBytes s.baseAddr (s.vUpTo x)).advance := by
  unfold execLdMemVx at h
  split at h
  · cases h
  · next hb => exact ⟨(pastEnd_eq_false_iff _ _).1 (by simpa using hb), (Host.Outcome.next.inj h).symm⟩

theorem execLdVxMem_next {x : Reg} (h : execLdVxMem x s = .next t) :
    s.baseAddr + (x.val + 1) ≤ 4096 ∧ t = (s.setVUpTo x fun k => s.memByte (s.baseAddr + k)).advance := by
  unfold execLdVxMem at h
  split at h
  · cases h
  · next hb => exact ⟨(pastEnd_eq_false_iff _ _).1 (by simpa using hb), (Host.Outcome.next.inj h).symm⟩

end Sys2Proof.Machine
end

