-- ==== Sys2Proof/Laws/Decode.lean ====
section
/-! SUPPORT. Fields of the formats, and when a row of the opcode map selects a word. -/

namespace Sys2Proof

/-! ## Words and fields as numbers (R71, R72) -/

theorem append_toNat {m n : Nat} (a : BitVec m) (b : BitVec n) : (a ++ b).toNat = a.toNat * 2 ^ n + b.toNat := by
  rw [BitVec.toNat_append, ← Nat.shiftLeft_add_eq_or_of_lt b.isLt, Nat.shiftLeft_eq]

@[simp] theorem regBits_toNat (x : Reg) : (regBits x).toNat = x.val := rfl

theorem formatA_toNat (t : Nibble) (a : Addr12) : (formatA t a).toNat = t.toNat * 4096 + a.toNat :=
  append_toNat t a

theorem formatXK_toNat (t : Nibble) (x : Reg) (kk : Byte) :
    (formatXK t x kk).toNat = t.toNat * 4096 + x.val * 256 + kk.toNat := by
  refine (append_toNat (t ++ regBits x) kk).trans ?_
  rw [append_toNat, regBits_toNat]
  omega

theorem formatXYN_toNat (t : Nibble) (x y : Reg) (n : Nibble) :
    (formatXYN t x y n).toNat = t.toNat * 4096 + x.val * 256 + y.val * 16 + n.toNat := by
  refine (append_toNat (t ++ regBits x) (regBits y ++ n)).trans ?_
  rw [append_toNat, append_toNat, regBits_toNat, regBits_toNat]
  omega

theorem fieldTop_toNat (op : Word) : (fieldTop op).toNat = op.toNat / 4096 := by
  have := op.isLt
  simp only [fieldTop, BitVec.extractLsb'_toNat, Nat.shiftRight_eq_div_pow]
  omega

theorem fieldX_val (op : Word) : (fieldX op).val = op.toNat / 256 % 16 := by
  change (op.extractLsb' 8 4).toNat = _
  simp only [BitVec.extractLsb'_toNat, Nat.shiftRight_eq_div_pow]

theorem fieldY_val (op : Word) : (fieldY op).val = op.toNat / 16 % 16 := by
  change (op.extractLsb' 4 4).toNat = _
  simp only [BitVec.extractLsb'_toNat, Nat.shiftRight_eq_div_pow]

theorem fieldN_toNat (op : Word) : (fieldN op).toNat = op.toNat % 16 := by
  simp only [fieldN, BitVec.extractLsb'_toNat, Nat.shiftRight_eq_div_pow]
  omega

theorem fieldKK_toNat (op : Word) : (fieldKK op).toNat = op.toNat % 256 := by
  simp only [fieldKK, BitVec.extractLsb'_toNat, Nat.shiftRight_eq_div_pow]
  omega

theorem fieldNNN_toNat (op : Word) : (fieldNNN op).toNat = op.toNat % 4096 := by
  simp only [fieldNNN, BitVec.extractLsb'_toNat, Nat.shiftRight_eq_div_pow]
  omega

/-! ## The fields of a format are what it was made of -/

section
variable (t : Nibble) (x y : Reg) (n : Nibble) (kk : Byte) (a : Addr12)

@[simp] theorem fieldTop_formatA : fieldTop (formatA t a) = t := by
  have := a.isLt
  apply BitVec.eq_of_toNat_eq
  rw [fieldTop_toNat, formatA_toNat]
  omega

@[simp] theorem fieldNNN_formatA : fieldNNN (formatA t a) = a := by
  have := a.isLt
  apply BitVec.eq_of_toNat_eq
  rw [fieldNNN_toNat, formatA_toNat]
  omega

@[simp] theorem fieldTop_formatXK : fieldTop (formatXK t x kk) = t := by
  have := kk.isLt
  apply BitVec.eq_of_toNat_eq
  rw [fieldTop_toNat, formatXK_toNat]
  omega

@[simp] theorem fieldX_formatXK : fieldX (formatXK t x kk) = x := by
  have := kk.isLt
  apply Fin.eq_of_val_eq
  rw [fieldX_val, formatXK_toNat]
  omega

@[simp] theorem fieldKK_formatXK : fieldKK (formatXK t x kk) = kk := by
  have := kk.isLt
  apply BitVec.eq_of_toNat_eq
  rw [fieldKK_toNat, formatXK_toNat]
  omega

@[simp] theorem fieldTop_formatXYN : fieldTop (formatXYN t x y n) = t := by
  have := n.isLt
  apply BitVec.eq_of_toNat_eq
  rw [fieldTop_toNat, formatXYN_toNat]
  omega

@[simp] theorem fieldX_formatXYN : fieldX (formatXYN t x y n) = x := by
  have := n.isLt
  apply Fin.eq_of_val_eq
  rw [fieldX_val, formatXYN_toNat]
  omega

@[simp] theorem fieldY_formatXYN : fieldY (formatXYN t x y n) = y := by
  have := n.isLt
  apply Fin.eq_of_val_eq
  rw [fieldY_val, formatXYN_toNat]
  omega

@[simp] theorem fieldN_formatXYN : fieldN (formatXYN t x y n) = n := by
  have := n.isLt
  apply BitVec.eq_of_toNat_eq
  rw [fieldN_toNat, formatXYN_toNat]
  omega

end

/-! ## A word is the format of its fields -/

theorem formatA_fields (op : Word) : formatA (fieldTop op) (fieldNNN op) = op := by
  apply BitVec.eq_of_toNat_eq
  rw [formatA_toNat, fieldTop_toNat, fieldNNN_toNat]
  omega

theorem formatXK_fields (op : Word) : formatXK (fieldTop op) (fieldX op) (fieldKK op) = op := by
  apply BitVec.eq_of_toNat_eq
  rw [formatXK_toNat, fieldTop_toNat, fieldX_val, fieldKK_toNat]
  omega

theorem formatXYN_fields (op : Word) : formatXYN (fieldTop op) (fieldX op) (fieldY op) (fieldN op) = op := by
  apply BitVec.eq_of_toNat_eq
  rw [formatXYN_toNat, fieldTop_toNat, fieldX_val, fieldY_val, fieldN_toNat]
  omega

/-! ## Bytes of a word (R56) -/

@[simp] theorem wordOfBytes_bytesOfWord (op : Word) :
    wordOfBytes (op.extractLsb' 8 8) (op.extractLsb' 0 8) = op := by
  apply BitVec.eq_of_toNat_eq
  have := op.isLt
  refine (append_toNat (op.extractLsb' 8 8) (op.extractLsb' 0 8)).trans ?_
  simp only [BitVec.extractLsb'_toNat, Nat.shiftRight_eq_div_pow]
  omega

/-- Decoding two bytes is decoding their word. -/
theorem decode_bytesOfWord (op : Word) (rest : List Byte) :
    decode (bytesOfWord op ++ rest) =
      match decodeWord op with
      | some i => .ok (i, rest)
      | none => .error (.illegal op) := by
  cases h : decodeWord op <;> simp [bytesOfWord, decode, h]

/-! ## Selection by a row (R74), for the four masks of R75 -/

theorem selects_F000 (op v : Word) (hv : v &&& 0xF000#16 = v) :
    OpcodeRow.selects ⟨0xF000#16, v⟩ op = true ↔ fieldTop op = fieldTop v := by
  have split : ∀ w : Word, w &&& 0xF000#16 = formatA (fieldTop w) 0#12 := by
    intro w
    have h : formatA (fieldTop w) (fieldNNN w) &&& formatA 0xF#4 0#12 = formatA (fieldTop w) 0#12 := by
      simp only [formatA]
      exact BitVec.and_append.trans (by rw [show (0xF#4) = BitVec.allOnes 4 from rfl, BitVec.and_allOnes, BitVec.and_zero])
    rwa [formatA_fields] at h
  simp only [OpcodeRow.selects, beq_iff_eq]
  constructor
  · intro h
    have := congrArg fieldTop (h.trans hv.symm)
    simpa [split] using this
  · intro h
    rw [split, h, ← split, hv]

theorem selects_F00F (op v : Word) (hv : v &&& 0xF00F#16 = v) :
    OpcodeRow.selects ⟨0xF00F#16, v⟩ op = true ↔ fieldTop op = fieldTop v ∧ fieldN op = fieldN v := by
  have split : ∀ w : Word, w &&& 0xF00F#16 = formatXYN (fieldTop w) 0 0 (fieldN w) := by
    intro w
    have h : formatXYN (fieldTop w) (fieldX w) (fieldY w) (fieldN w) &&& formatXYN 0xF#4 0 0 0xF#4 =
        formatXYN (fieldTop w) 0 0 (fieldN w) := by
      simp only [formatXYN]
      exact BitVec.and_append.trans (by
        rw [BitVec.and_append, BitVec.and_append, show (0xF#4) = BitVec.allOnes 4 from rfl, BitVec.and_allOnes,
          BitVec.and_allOnes, show regBits 0 = 0#4 from rfl, BitVec.and_zero, BitVec.and_zero])
    rwa [formatXYN_fields] at h
  simp only [OpcodeRow.selects, beq_iff_eq]
  constructor
  · intro h
    have h1 := congrArg fieldTop (h.trans hv.symm)
    have h2 := congrArg fieldN (h.trans hv.symm)
    simp only [split, fieldTop_formatXYN, fieldN_formatXYN] at h1 h2
    exact ⟨h1, h2⟩
  · rintro ⟨h1, h2⟩
    rw [split, h1, h2, ← split, hv]

theorem selects_F0FF (op v : Word) (hv : v &&& 0xF0FF#16 = v) :
    OpcodeRow.selects ⟨0xF0FF#16, v⟩ op = true ↔ fieldTop op = fieldTop v ∧ fieldKK op = fieldKK v := by
  have split : ∀ w : Word, w &&& 0xF0FF#16 = formatXK (fieldTop w) 0 (fieldKK w) := by
    intro w
    have h : formatXK (fieldTop w) (fieldX w) (fieldKK w) &&& formatXK 0xF#4 0 0xFF#8 =
        formatXK (fieldTop w) 0 (fieldKK w) := by
      simp only [formatXK]
      exact BitVec.and_append.trans (by
        rw [BitVec.and_append, show (0xF#4) = BitVec.allOnes 4 from rfl, show (0xFF#8) = BitVec.allOnes 8 from rfl,
          BitVec.and_allOnes, BitVec.and_allOnes, show regBits 0 = 0#4 from rfl, BitVec.and_zero])
    rwa [formatXK_fields] at h
  simp only [OpcodeRow.selects, beq_iff_eq]
  constructor
  · intro h
    have h1 := congrArg fieldTop (h.trans hv.symm)
    have h2 := congrArg fieldKK (h.trans hv.symm)
    simp only [split, fieldTop_formatXK, fieldKK_formatXK] at h1 h2
    exact ⟨h1, h2⟩
  · rintro ⟨h1, h2⟩
    rw [split, h1, h2, ← split, hv]

theorem selects_FFFF (op v : Word) : OpcodeRow.selects ⟨0xFFFF#16, v⟩ op = true ↔ op = v := by
  have : op &&& 0xFFFF#16 = op := BitVec.and_allOnes
  simp only [OpcodeRow.selects, beq_iff_eq, this]

/-- Rows that fix a common bit differently share no word. -/
theorem OpcodeRow.not_both_of_disjoint {r q : OpcodeRow} (h : r.disjoint q = true) {op : Word}
    (hr : r.selects op = true) (hq : q.selects op = true) : False := by
  simp only [OpcodeRow.selects, beq_iff_eq] at hr hq
  simp only [OpcodeRow.disjoint, bne_iff_ne] at h
  refine h ?_
  rw [← hr, ← hq, BitVec.and_assoc, BitVec.and_assoc, BitVec.and_comm r.mask]

theorem opcodeMap_wf : opcodeMapWf opcodeMap = true := by decide

end Sys2Proof
end

