-- ==== Sys2Proof/Laws/Display.lean ====
section
/-! SUPPORT. The display: what toggling one cell does, and what drawing a sprite does to every cell and to the collision. -/

namespace Sys2Proof.Machine

theorem pixel_togglePixel (d : Display) (r r' : Fin 32) (c c' : Fin 64) :
    pixel (togglePixel d r c) r' c' = if r' = r ∧ c' = c then !pixel d r' c' else pixel d r' c' := by
  simp only [pixel, togglePixel, Fin.getElem_fin, Vector.getElem_set, Fin.ext_iff]
  by_cases hr : r.val = r'.val
  · by_cases hc : c.val = c'.val
    · simp [hr, hc]
    · have : ¬ c'.val = c.val := fun h => hc h.symm
      simp [hr, hc, this]
  · have : ¬ r'.val = r.val := fun h => hr h.symm
    simp [hr, this]

@[simp] theorem pixel_clearDisplay (r : Fin 32) (c : Fin 64) : pixel clearDisplay r c = false := by
  simp [pixel, clearDisplay]

/-- A 1 bit of a sprite's row lands on the cell: columns below `upTo` only. -/
def rowHits (x0 y0 : Byte) (row : Nat) (bits : Byte) (upTo : Nat) (r : Fin 32) (c : Fin 64) : Prop :=
  ∃ col, col < upTo ∧ bits.getLsbD (7 - col) = true ∧ r = spriteRow y0 row ∧ c = spriteCol x0 col

/-- Two columns of a sprite never share a display column. -/
theorem spriteCol_inj (x0 : Byte) {j k : Nat} (hj : j < 64) (hk : k < 64) (h : spriteCol x0 j = spriteCol x0 k) :
    j = k := by
  have := congrArg Fin.val h
  simp only [spriteCol] at this
  omega

/-- Two rows of a sprite never share a display row. -/
theorem spriteRow_inj (y0 : Byte) {j k : Nat} (hj : j < 32) (hk : k < 32) (h : spriteRow y0 j = spriteRow y0 k) :
    j = k := by
  have := congrArg Fin.val h
  simp only [spriteRow] at this
  omega

/-- The first `m` columns of a row: each covered cell is inverted, no other changes, and a covered set cell is a collision. -/
theorem drawRow_upTo (x0 y0 : Byte) (row : Nat) (bits : Byte) (acc : Display × Bool) (m : Nat) (hm : m ≤ 8) :
    (∀ r c, (rowHits x0 y0 row bits m r c →
        pixel ((List.range m).foldl (drawPixel x0 y0 row bits) acc).1 r c = !pixel acc.1 r c) ∧
      (¬ rowHits x0 y0 row bits m r c →
        pixel ((List.range m).foldl (drawPixel x0 y0 row bits) acc).1 r c = pixel acc.1 r c)) ∧
    (((List.range m).foldl (drawPixel x0 y0 row bits) acc).2 = true ↔
      acc.2 = true ∨ ∃ r c, rowHits x0 y0 row bits m r c ∧ pixel acc.1 r c = true) := by
  induction m with
  | zero => simp [rowHits]
  | succ m ih =>
    obtain ⟨ihp, ihc⟩ := ih (by omega)
    rw [List.range_succ, List.foldl_append, List.foldl_cons, List.foldl_nil]
    generalize hd : (List.range m).foldl (drawPixel x0 y0 row bits) acc = d at ihp ihc ⊢
    have hsucc : ∀ r c, rowHits x0 y0 row bits (m + 1) r c ↔ rowHits x0 y0 row bits m r c ∨
        (bits.getLsbD (7 - m) = true ∧ r = spriteRow y0 row ∧ c = spriteCol x0 m) := by
      intro r c
      constructor
      · rintro ⟨col, hcol, h1, h2, h3⟩
        rcases Nat.lt_succ_iff_lt_or_eq.1 hcol with h | rfl
        · exact .inl ⟨col, h, h1, h2, h3⟩
        · exact .inr ⟨h1, h2, h3⟩
      · rintro (⟨col, hcol, h⟩ | h)
        · exact ⟨col, by omega, h⟩
        · exact ⟨m, by omega, h⟩
    by_cases hb : bits.getLsbD (7 - m) = true
    · have hnot : ¬ rowHits x0 y0 row bits m (spriteRow y0 row) (spriteCol x0 m) := by
        rintro ⟨col, hcol, -, -, h⟩
        exact absurd (spriteCol_inj x0 (by omega) (by omega) h) (by omega)
      have hpix := (ihp (spriteRow y0 row) (spriteCol x0 m)).2 hnot
      simp only [drawPixel, hb, if_true, pixel_togglePixel, hsucc, true_and]
      refine ⟨fun r c => ?_, ?_⟩
      · by_cases hrc : r = spriteRow y0 row ∧ c = spriteCol x0 m
        · obtain ⟨rfl, rfl⟩ := hrc
          simp [hpix]
        · simp only [hrc, or_false, if_false]
          exact ihp r c
      · rw [Bool.or_eq_true, ihc, hpix, or_assoc]
        refine or_congr_right ⟨?_, ?_⟩
        · rintro (⟨r, c, h1, h2⟩ | h)
          · exact ⟨r, c, .inl h1, h2⟩
          · exact ⟨_, _, .inr ⟨rfl, rfl⟩, h⟩
        · rintro ⟨r, c, h1 | ⟨rfl, rfl⟩, h2⟩
          · exact .inl ⟨r, c, h1, h2⟩
          · exact .inr h2
    · simp only [drawPixel, hb, if_false, Bool.false_eq_true, hsucc, false_and, or_false]
      exact ⟨ihp, ihc⟩

/-- A 1 bit of the rows lands on the cell; the first of them is sprite row `row`. -/
def spriteHits (x0 y0 : Byte) (bytes : List Byte) (row : Nat) (r : Fin 32) (c : Fin 64) : Prop :=
  ∃ (k : Nat) (h : k < bytes.length), rowHits x0 y0 (row + k) bytes[k] 8 r c

/-- Everything drawing a sprite does (R141): each covered cell is inverted, no other changes, and the collision is that some
covered cell was set. -/
theorem drawSprite_spec (x0 y0 : Byte) (bytes : List Byte) (row : Nat) (acc : Display × Bool)
    (hrow : row + bytes.length ≤ 32) :
    (∀ r c, (spriteHits x0 y0 bytes row r c →
        pixel (drawSprite x0 y0 bytes row acc).1 r c = !pixel acc.1 r c) ∧
      (¬ spriteHits x0 y0 bytes row r c → pixel (drawSprite x0 y0 bytes row acc).1 r c = pixel acc.1 r c)) ∧
    ((drawSprite x0 y0 bytes row acc).2 = true ↔
      acc.2 = true ∨ ∃ r c, spriteHits x0 y0 bytes row r c ∧ pixel acc.1 r c = true) := by
  induction bytes generalizing row acc with
  | nil => simp [spriteHits, drawSprite]
  | cons b bs ih =>
    simp only [List.length_cons] at hrow
    obtain ⟨rp, rc⟩ := drawRow_upTo x0 y0 row b acc 8 le_rfl
    obtain ⟨ihp, ihc⟩ := ih (row + 1) (drawRow x0 y0 row b acc) (by omega)
    have hcons : ∀ r c, spriteHits x0 y0 (b :: bs) row r c ↔
        rowHits x0 y0 row b 8 r c ∨ spriteHits x0 y0 bs (row + 1) r c := by
      intro r c
      constructor
      · rintro ⟨k, hk, h⟩
        cases k with
        | zero => exact .inl h
        | succ k =>
          refine .inr ⟨k, by simpa using hk, ?_⟩
          rwa [show row + 1 + k = row + (k + 1) by omega]
      · rintro (h | ⟨k, hk, h⟩)
        · exact ⟨0, by simp, h⟩
        · refine ⟨k + 1, by simpa using hk, ?_⟩
          rwa [show row + 1 + k = row + (k + 1) by omega] at h
    have hdis : ∀ r c, rowHits x0 y0 row b 8 r c → ¬ spriteHits x0 y0 bs (row + 1) r c := by
      rintro r c ⟨_, _, _, hr, _⟩ ⟨k, hk, _, _, _, hr', _⟩
      exact absurd (spriteRow_inj y0 (by omega) (by omega) (hr.symm.trans hr')) (by omega)
    change ∀ r c, (_ → pixel (drawRow x0 y0 row b acc).1 r c = _) ∧ (_ → pixel (drawRow x0 y0 row b acc).1 r c = _) at rp
    change (drawRow x0 y0 row b acc).2 = true ↔ _ at rc
    simp only [drawSprite, hcons]
    refine ⟨fun r c => ⟨?_, fun h => ?_⟩, ?_⟩
    · rintro (h | h)
      · rw [(ihp r c).2 (hdis r c h), (rp r c).1 h]
      · rw [(ihp r c).1 h, (rp r c).2 fun h' => hdis r c h' h]
    · rw [not_or] at h
      rw [(ihp r c).2 h.2, (rp r c).2 h.1]
    · rw [ihc, rc, or_assoc]
      refine or_congr_right ⟨?_, ?_⟩
      · rintro (⟨r, c, h1, h2⟩ | ⟨r, c, h1, h2⟩)
        · exact ⟨r, c, .inl h1, h2⟩
        · exact ⟨r, c, .inr h1, by rwa [(rp r c).2 fun h' => hdis r c h' h1] at h2⟩
      · rintro ⟨r, c, h1 | h1, h2⟩
        · exact .inl ⟨r, c, h1, h2⟩
        · exact .inr ⟨r, c, h1, by rwa [(rp r c).2 fun h' => hdis r c h' h1]⟩

end Sys2Proof.Machine
end

