-- ==== Sys2Proof/Laws/PerInstr.lean ====
section
/-! SUPPORT. A law of every instruction as syntax: its encoding selects its own row of the opcode map and no other (R74, R75). -/

namespace Sys2Proof.Laws

/-- The encoding of the instruction selects the row of its number, and no other row. -/
def OwnRow.Statement (i : Instr) : Prop :=
  ∀ (k : Nat) (h : k < opcodeMap.length), opcodeMap[k].selects (encode i) = true ↔ k = rowNumber i

theorem rowNumber_lt (i : Instr) : rowNumber i < opcodeMap.length := by
  cases i <;> simp [rowNumber, opcodeMap, opcodeMapA, opcodeMapB, opcodeMapC]

/-- It is enough that its own row selects it, since rows are disjoint. -/
theorem ownRow_of_selects (i : Instr) (h : (opcodeMap[rowNumber i]'(rowNumber_lt i)).selects (encode i) = true) :
    OwnRow.Statement i := by
  intro k hk
  have hi := rowNumber_lt i
  refine ⟨fun hsel => ?_, fun hk' => by subst hk'; exact h⟩
  have hp : opcodeMap.Pairwise fun r q => r.disjoint q = true :=
    of_decide_eq_true (Bool.and_eq_true_iff.1 opcodeMap_wf).2
  rcases Nat.lt_trichotomy k (rowNumber i) with hlt | heq | hgt
  · exact (OpcodeRow.not_both_of_disjoint (List.pairwise_iff_getElem.1 hp k _ hk hi hlt) hsel h).elim
  · exact heq
  · exact (OpcodeRow.not_both_of_disjoint (List.pairwise_iff_getElem.1 hp _ k hi hk hgt) h hsel).elim

theorem OwnRow.cls : OwnRow.Statement .cls :=
  ownRow_of_selects _ ((selects_FFFF _ _).2 rfl)

theorem OwnRow.ret : OwnRow.Statement .ret :=
  ownRow_of_selects _ ((selects_FFFF _ _).2 rfl)

theorem OwnRow.jp (nnn : Addr12) : OwnRow.Statement (.jp nnn) :=
  ownRow_of_selects _ ((selects_F000 _ _ rfl).2 (fieldTop_formatA _ _))

theorem OwnRow.call (nnn : Addr12) : OwnRow.Statement (.call nnn) :=
  ownRow_of_selects _ ((selects_F000 _ _ rfl).2 (fieldTop_formatA _ _))

theorem OwnRow.seImm (x : Reg) (kk : Byte) : OwnRow.Statement (.seImm x kk) :=
  ownRow_of_selects _ ((selects_F000 _ _ rfl).2 (fieldTop_formatXK _ _ _))

theorem OwnRow.sneImm (x : Reg) (kk : Byte) : OwnRow.Statement (.sneImm x kk) :=
  ownRow_of_selects _ ((selects_F000 _ _ rfl).2 (fieldTop_formatXK _ _ _))

theorem OwnRow.seReg (x : Reg) (y : Reg) : OwnRow.Statement (.seReg x y) :=
  ownRow_of_selects _ ((selects_F00F _ _ rfl).2 ⟨fieldTop_formatXYN _ _ _ _, fieldN_formatXYN _ _ _ _⟩)

theorem OwnRow.ldImm (x : Reg) (kk : Byte) : OwnRow.Statement (.ldImm x kk) :=
  ownRow_of_selects _ ((selects_F000 _ _ rfl).2 (fieldTop_formatXK _ _ _))

theorem OwnRow.addImm (x : Reg) (kk : Byte) : OwnRow.Statement (.addImm x kk) :=
  ownRow_of_selects _ ((selects_F000 _ _ rfl).2 (fieldTop_formatXK _ _ _))

theorem OwnRow.ldReg (x : Reg) (y : Reg) : OwnRow.Statement (.ldReg x y) :=
  ownRow_of_selects _ ((selects_F00F _ _ rfl).2 ⟨fieldTop_formatXYN _ _ _ _, fieldN_formatXYN _ _ _ _⟩)

theorem OwnRow.orReg (x : Reg) (y : Reg) : OwnRow.Statement (.orReg x y) :=
  ownRow_of_selects _ ((selects_F00F _ _ rfl).2 ⟨fieldTop_formatXYN _ _ _ _, fieldN_formatXYN _ _ _ _⟩)

theorem OwnRow.andReg (x : Reg) (y : Reg) : OwnRow.Statement (.andReg x y) :=
  ownRow_of_selects _ ((selects_F00F _ _ rfl).2 ⟨fieldTop_formatXYN _ _ _ _, fieldN_formatXYN _ _ _ _⟩)

theorem OwnRow.xorReg (x : Reg) (y : Reg) : OwnRow.Statement (.xorReg x y) :=
  ownRow_of_selects _ ((selects_F00F _ _ rfl).2 ⟨fieldTop_formatXYN _ _ _ _, fieldN_formatXYN _ _ _ _⟩)

theorem OwnRow.addReg (x : Reg) (y : Reg) : OwnRow.Statement (.addReg x y) :=
  ownRow_of_selects _ ((selects_F00F _ _ rfl).2 ⟨fieldTop_formatXYN _ _ _ _, fieldN_formatXYN _ _ _ _⟩)

theorem OwnRow.subReg (x : Reg) (y : Reg) : OwnRow.Statement (.subReg x y) :=
  ownRow_of_selects _ ((selects_F00F _ _ rfl).2 ⟨fieldTop_formatXYN _ _ _ _, fieldN_formatXYN _ _ _ _⟩)

theorem OwnRow.shr (x : Reg) (y : Reg) : OwnRow.Statement (.shr x y) :=
  ownRow_of_selects _ ((selects_F00F _ _ rfl).2 ⟨fieldTop_formatXYN _ _ _ _, fieldN_formatXYN _ _ _ _⟩)

theorem OwnRow.subn (x : Reg) (y : Reg) : OwnRow.Statement (.subn x y) :=
  ownRow_of_selects _ ((selects_F00F _ _ rfl).2 ⟨fieldTop_formatXYN _ _ _ _, fieldN_formatXYN _ _ _ _⟩)

theorem OwnRow.shl (x : Reg) (y : Reg) : OwnRow.Statement (.shl x y) :=
  ownRow_of_selects _ ((selects_F00F _ _ rfl).2 ⟨fieldTop_formatXYN _ _ _ _, fieldN_formatXYN _ _ _ _⟩)

theorem OwnRow.sneReg (x : Reg) (y : Reg) : OwnRow.Statement (.sneReg x y) :=
  ownRow_of_selects _ ((selects_F00F _ _ rfl).2 ⟨fieldTop_formatXYN _ _ _ _, fieldN_formatXYN _ _ _ _⟩)

theorem OwnRow.ldI (nnn : Addr12) : OwnRow.Statement (.ldI nnn) :=
  ownRow_of_selects _ ((selects_F000 _ _ rfl).2 (fieldTop_formatA _ _))

theorem OwnRow.jpV0 (nnn : Addr12) : OwnRow.Statement (.jpV0 nnn) :=
  ownRow_of_selects _ ((selects_F000 _ _ rfl).2 (fieldTop_formatA _ _))

theorem OwnRow.rnd (x : Reg) (kk : Byte) : OwnRow.Statement (.rnd x kk) :=
  ownRow_of_selects _ ((selects_F000 _ _ rfl).2 (fieldTop_formatXK _ _ _))

theorem OwnRow.drw (x : Reg) (y : Reg) (n : Nibble) : OwnRow.Statement (.drw x y n) :=
  ownRow_of_selects _ ((selects_F000 _ _ rfl).2 (fieldTop_formatXYN _ _ _ _))

theorem OwnRow.skp (x : Reg) : OwnRow.Statement (.skp x) :=
  ownRow_of_selects _ ((selects_F0FF _ _ rfl).2 ⟨fieldTop_formatXK _ _ _, fieldKK_formatXK _ _ _⟩)

theorem OwnRow.sknp (x : Reg) : OwnRow.Statement (.sknp x) :=
  ownRow_of_selects _ ((selects_F0FF _ _ rfl).2 ⟨fieldTop_formatXK _ _ _, fieldKK_formatXK _ _ _⟩)

theorem OwnRow.ldVxDt (x : Reg) : OwnRow.Statement (.ldVxDt x) :=
  ownRow_of_selects _ ((selects_F0FF _ _ rfl).2 ⟨fieldTop_formatXK _ _ _, fieldKK_formatXK _ _ _⟩)

theorem OwnRow.ldVxK (x : Reg) : OwnRow.Statement (.ldVxK x) :=
  ownRow_of_selects _ ((selects_F0FF _ _ rfl).2 ⟨fieldTop_formatXK _ _ _, fieldKK_formatXK _ _ _⟩)

theorem OwnRow.ldDtVx (x : Reg) : OwnRow.Statement (.ldDtVx x) :=
  ownRow_of_selects _ ((selects_F0FF _ _ rfl).2 ⟨fieldTop_formatXK _ _ _, fieldKK_formatXK _ _ _⟩)

theorem OwnRow.ldStVx (x : Reg) : OwnRow.Statement (.ldStVx x) :=
  ownRow_of_selects _ ((selects_F0FF _ _ rfl).2 ⟨fieldTop_formatXK _ _ _, fieldKK_formatXK _ _ _⟩)

theorem OwnRow.addI (x : Reg) : OwnRow.Statement (.addI x) :=
  ownRow_of_selects _ ((selects_F0FF _ _ rfl).2 ⟨fieldTop_formatXK _ _ _, fieldKK_formatXK _ _ _⟩)

theorem OwnRow.ldF (x : Reg) : OwnRow.Statement (.ldF x) :=
  ownRow_of_selects _ ((selects_F0FF _ _ rfl).2 ⟨fieldTop_formatXK _ _ _, fieldKK_formatXK _ _ _⟩)

theorem OwnRow.ldB (x : Reg) : OwnRow.Statement (.ldB x) :=
  ownRow_of_selects _ ((selects_F0FF _ _ rfl).2 ⟨fieldTop_formatXK _ _ _, fieldKK_formatXK _ _ _⟩)

theorem OwnRow.ldMemVx (x : Reg) : OwnRow.Statement (.ldMemVx x) :=
  ownRow_of_selects _ ((selects_F0FF _ _ rfl).2 ⟨fieldTop_formatXK _ _ _, fieldKK_formatXK _ _ _⟩)

theorem OwnRow.ldVxMem (x : Reg) : OwnRow.Statement (.ldVxMem x) :=
  ownRow_of_selects _ ((selects_F0FF _ _ rfl).2 ⟨fieldTop_formatXK _ _ _, fieldKK_formatXK _ _ _⟩)

end Sys2Proof.Laws
end

