-- ==== Sys2Proof/Tests/Slice0.lean ====
section
/-! SUPPORT. Tests of this model: ill-formed terms the checks refuse, decoding of words written out from R75, one step of each
instruction against 95_test_vectors.md (the vector's id stands in the docstring), and a witness for the hypotheses of every
statement that has some. -/

namespace Sys2Proof.Tests

open Sys2Proof Sys2Proof.Machine

/-! ## Well-formedness: an ill-formed term for each check -/

/-- A row that asks for a bit its mask does not cover. -/
theorem test_wf_row_refuses : OpcodeRow.wf ⟨0xF000, 0x5001⟩ = false := by decide

/-- Two rows that the word 0x8000 matches together. -/
theorem test_wf_rows_not_disjoint : OpcodeRow.disjoint ⟨0xF000, 0x8000⟩ ⟨0xF00F, 0x8000⟩ = false := by decide

/-- A map with an ill-formed row, and a map with two rows that overlap. -/
theorem test_wf_map_refuses :
    opcodeMapWf [⟨0xF000, 0x5001⟩] = false ∧ opcodeMapWf [⟨0xF000, 0x8000⟩, ⟨0xF00F, 0x8000⟩] = false := by decide

/-- The words of T2, T3 and T4 match no row; the word of A4 does. -/
theorem test_wf_word_refuses :
    [0x5121, 0x0123, 0x8018, 0x801F, 0x9011, 0xE09F, 0xE0A0, 0xF000, 0xF066, 0x00E1, 0x00EF, 0x00FE].all
      (fun w => !legalWord w) = true ∧ legalWord 0x8014 = true := by decide

/-- E7: 3585 bytes do not fit, 3584 do. -/
theorem test_wf_program_refuses :
    programFits (List.replicate 3585 0) = false ∧ programFits (List.replicate 3584 0) = true := by
  rw [programFits, programFits, List.length_replicate, List.length_replicate]
  decide

/-! ## Decoding: words written out bit by bit from the encodings of R75 -/

theorem test_decode_flow :
    decodeTableWord 16 0b0000000011101110 = some .ret ∧
    decodeTableWord 16 0b0001001000110100 = some (.jp 0x234) ∧
    decodeTableWord 16 0b0010101010111100 = some (.call 0xABC) ∧
    decodeTableWord 16 0b1011111111111110 = some (.jpV0 0xFFE) ∧
    decodeTableWord 16 0b0011101000111100 = some (.seImm 0xA 0x3C) ∧
    decodeTableWord 16 0b0100000110000001 = some (.sneImm 0x1 0x81) ∧
    decodeTableWord 16 0b0101000100100000 = some (.seReg 0x1 0x2) ∧
    decodeTableWord 16 0b1001111000010000 = some (.sneReg 0xE 0x1) := by decide

theorem test_decode_load_and_alu :
    decodeTableWord 16 0b0110101001011100 = some (.ldImm 0xA 0x5C) ∧
    decodeTableWord 16 0b0111000000000010 = some (.addImm 0x0 0x02) ∧
    decodeTableWord 16 0b1000000100100000 = some (.ldReg 0x1 0x2) ∧
    decodeTableWord 16 0b1000001000010001 = some (.orReg 0x2 0x1) ∧
    decodeTableWord 16 0b1000001101000010 = some (.andReg 0x3 0x4) ∧
    decodeTableWord 16 0b1000010000110011 = some (.xorReg 0x4 0x3) ∧
    decodeTableWord 16 0b1000000000010100 = some (.addReg 0x0 0x1) := by decide

theorem test_decode_subtract_and_shift :
    decodeTableWord 16 0b1000111100010101 = some (.subReg 0xF 0x1) ∧
    decodeTableWord 16 0b1000000011110110 = some (.shr 0x0 0xF) ∧
    decodeTableWord 16 0b1000010101100111 = some (.subn 0x5 0x6) ∧
    decodeTableWord 16 0b1000011110001110 = some (.shl 0x7 0x8) := by decide

theorem test_decode_index_and_memory :
    decodeTableWord 16 0b1010000100100011 = some (.ldI 0x123) ∧
    decodeTableWord 16 0b1111001100011110 = some (.addI 0x3) ∧
    decodeTableWord 16 0b1111010000101001 = some (.ldF 0x4) ∧
    decodeTableWord 16 0b1111010100110011 = some (.ldB 0x5) ∧
    decodeTableWord 16 0b1111011001010101 = some (.ldMemVx 0x6) ∧
    decodeTableWord 16 0b1111011101100101 = some (.ldVxMem 0x7) := by decide

theorem test_decode_display :
    decodeTableWord 16 0b0000000011100000 = some .cls ∧
    decodeTableWord 16 0b1101000100100101 = some (.drw 0x1 0x2 0x5) := by decide

theorem test_decode_timer_key_random :
    decodeTableWord 16 0b1111001100000111 = some (.ldVxDt 0x3) ∧
    decodeTableWord 16 0b1111010000010101 = some (.ldDtVx 0x4) ∧
    decodeTableWord 16 0b1111010100011000 = some (.ldStVx 0x5) ∧
    decodeTableWord 16 0b1110011010011110 = some (.skp 0x6) ∧
    decodeTableWord 16 0b1110011110100001 = some (.sknp 0x7) ∧
    decodeTableWord 16 0b1100000111111110 = some (.rnd 0x1 0xFE) ∧
    decodeTableWord 16 0b1111111100001010 = some (.ldVxK 0xF) := by decide

/-- T2 to T4: near misses of legal words. -/
theorem test_decode_refuses :
    [0x5121, 0x0123, 0x8018, 0x801F, 0x9011, 0xE09F, 0xE0A0, 0xF000, 0xF066, 0x00E1, 0x00EF, 0x00FE].all
      (fun w => decodeTableWord 16 w == none) = true := by decide

/-- The decoder on bytes: too few, an illegal word, and the bytes after the instruction. -/
theorem test_decode_bytes :
    decode [0x60] = .error .truncated ∧ decode [0x51, 0x21, 0x00] = .error (.illegal 0x5121) ∧
    decode [0x60, 0x05, 0x61] = .ok (.ldImm 0 5, [0x61]) := ⟨rfl, rfl, rfl⟩

/-- Names of R75, one from each piece of the table and its last row. -/
theorem test_names :
    (Instr.cls.pattern, Instr.cls.assemblyForm) = ("00E0", "CLS") ∧
    ((Instr.subn 1 2).pattern, (Instr.subn 1 2).assemblyForm) = ("8xy7", "SUBN Vx, Vy") ∧
    ((Instr.ldVxMem 1).pattern, (Instr.ldVxMem 1).assemblyForm) = ("Fx65", "LD Vx, [I]") := ⟨rfl, rfl, rfl⟩

/-! ## One step of each instruction -/

/-- The reset state with registers 0, 1 and F set. -/
def regs (v0 v1 vf : Byte) : State := ((State.reset.setV 0 v0).setV 1 v1).setV 0xF vf

/-- The state after one step on a word, if there is one. -/
def after (s : State) (w : Nat) : Option State :=
  match step (s.withFetchWord 16 w) with
  | .next t => some t
  | _ => none

/-- The fault of one step on a word, if there is one. -/
def fault (s : State) (w : Nat) : Option Fault := faultOf (step (s.withFetchWord 16 w))

/-- Registers 0 and F and the program counter after one step. -/
def flags (s : State) (w : Nat) : Option (Byte × Byte × Word) := (after s w).map fun t => (t.getV 0, t.getV 0xF, t.pc)

/-- The program counter after one step. -/
def pcAfter (s : State) (w : Nat) : Option Word := (after s w).map fun t => t.pc

/-- `I` after one step. -/
def iAfter (s : State) (w : Nat) : Option Word := (after s w).map fun t => t.i

/-- The set pixels of a display row, as column numbers. -/
def setColumns (d : Display) (r : Fin 32) : List Nat := ((List.finRange 64).filter fun c => pixel d r c).map Fin.val

/-- A subroutine depth. -/
def depth (n : Fin 17) (s : State) : State := { s with sp := n }

/-- T1, and E2's underflow (F1). -/
theorem test_ret_underflow : fault State.reset 0x00EE = some .stackUnderflow ∧ step State.reset = .fault (.illegalInstruction 0) :=
  ⟨by decide, rfl⟩

/-- F2. -/
theorem test_ret_pops :
    (after (depth 2 { State.reset with pc := 0x400, stack := State.reset.stack.set 1 0x345 }) 0x00EE).map
      (fun t => (t.pc, t.sp, t.stack[1])) = some (0x345, 1, 0x345) := by decide

/-- F7 and F8. -/
theorem test_jp : pcAfter State.reset 0x1FFF = some 0xFFF ∧ pcAfter State.reset 0x1200 = some 0x200 := by decide

/-- F3: the stack is full. -/
theorem test_call_overflow : fault (depth 16 (State.reset.setPc 0x300)) 0x2ABC = some .stackOverflow := by decide

/-- F4: the last slot. -/
theorem test_call_last_slot :
    (after (depth 15 (State.reset.setPc 0x300)) 0x2ABC).map (fun t => (t.pc, t.sp, t.stack[15])) =
      some (0xABC, 16, 0x302) := by decide

/-- F6 and F20: no mask, and an odd target. -/
theorem test_jpV0 : pcAfter (regs 0xFF 0 0) 0xBFFF = some 0x10FE ∧ pcAfter (regs 0x01 0 0) 0xB300 = some 0x301 := by decide

/-- F9 at the end of memory, and F17. -/
theorem test_seImm :
    pcAfter (State.reset.setPc 0xFFE) 0x3000 = some 0x1002 ∧ pcAfter (State.reset.setV 0xA 0x3C) 0x3A3D = some 0x202 := by
  decide

/-- F14 and F15. -/
theorem test_sneImm : pcAfter (regs 0 0 0) 0x4100 = some 0x202 ∧ pcAfter (regs 0 1 0) 0x4100 = some 0x204 := by decide

/-- F11 and F13. -/
theorem test_seReg : pcAfter (regs 3 4 0) 0x5010 = some 0x202 ∧ pcAfter (regs 3 4 0) 0x5110 = some 0x204 := by decide

/-- F18 and F12. -/
theorem test_sneReg : pcAfter (regs 3 4 0) 0x9010 = some 0x204 ∧ pcAfter (regs 3 4 0) 0x9110 = some 0x202 := by decide

/-- A24: VF as a plain destination, and the first step of E8. -/
theorem test_ldImm : flags (regs 0 0 0) 0x6FAB = some (0, 0xAB, 0x202) ∧ flags (regs 0 0 0) 0x6005 = some (5, 0, 0x202) := by
  decide

/-- A1 and A2. -/
theorem test_addImm : flags (regs 0xFF 0 0) 0x7002 = some (1, 0, 0x202) ∧ flags (regs 0 0 0xFF) 0x7F01 = some (0, 0, 0x202) := by
  decide

/-- A23. -/
theorem test_ldReg : flags (regs 0 0x99 0) 0x8010 = some (0x99, 0, 0x202) := by decide

/-- A16. -/
theorem test_orReg : flags (regs 0xAA 0x55 1) 0x8011 = some (0xFF, 1, 0x202) := by decide

/-- A20. -/
theorem test_andReg : flags (regs 0xF0 0x3C 1) 0x8012 = some (0x30, 1, 0x202) := by decide

/-- A21. -/
theorem test_xorReg : flags (regs 0xF0 0x3C 1) 0x8013 = some (0xCC, 1, 0x202) := by decide

/-- A3 and A4. -/
theorem test_addReg : flags (regs 0xFF 1 0) 0x8014 = some (0, 1, 0x202) ∧ flags (regs 0x80 0x7F 1) 0x8014 = some (0xFF, 0, 0x202) := by
  decide

/-- A5 and A6: VF as destination and as source. -/
theorem test_addReg_flag : flags (regs 0 0x20 0xF0) 0x8F14 = some (0, 1, 0x202) ∧ flags (regs 0x10 0 1) 0x80F4 = some (0x11, 0, 0x202) := by
  decide

/-- A8 and A10. -/
theorem test_subReg : flags (regs 7 7 0) 0x8015 = some (0, 1, 0x202) ∧ flags (regs 5 7 1) 0x8015 = some (0xFE, 0, 0x202) := by
  decide

/-- A13 and A14. -/
theorem test_subn : flags (regs 5 7 0) 0x8017 = some (2, 1, 0x202) ∧ flags (regs 7 5 1) 0x8017 = some (0xFE, 0, 0x202) := by
  decide

/-- The same machine with `SHIFT_SOURCE = VY`. -/
def shiftsVy (s : State) : State := { s with params := { s.params with shiftSource := .vy } }

/-- S1 under both settings. -/
theorem test_shr :
    flags (regs 5 0x80 0) 0x8016 = some (2, 1, 0x202) ∧ flags (shiftsVy (regs 5 0x80 1)) 0x8016 = some (0x40, 0, 0x202) := by
  decide

/-- S3 under both settings: the flag wins over the result. -/
theorem test_shr_flag :
    flags (regs 0 4 3) 0x8F16 = some (0, 1, 0x202) ∧ flags (shiftsVy (regs 0 4 3)) 0x8F16 = some (0, 0, 0x202) := by decide

/-- S2 under both settings. -/
theorem test_shl :
    flags (regs 0x81 1 0) 0x801E = some (2, 1, 0x202) ∧ flags (shiftsVy (regs 0x81 1 1)) 0x801E = some (2, 0, 0x202) := by
  decide

/-- S7. -/
theorem test_shl_same : flags (regs 0xFF 0 0) 0x800E = some (0xFE, 1, 0x202) := by decide

/-- M2. -/
theorem test_ldI : iAfter State.reset 0xAFFF = some 0xFFF := by decide

/-- M3 and M4. -/
theorem test_addI :
    iAfter ((regs 1 0 0).setI 0xFFF) 0xF01E = some 0x1000 ∧ iAfter ((regs 1 0 0).setI 0xFFFF) 0xF01E = some 0 := by decide

/-- M7 and M10. -/
theorem test_ldF : iAfter (regs 0xF 0 0) 0xF029 = some 0x9B ∧ iAfter (regs 0xFF 0 0) 0xF029 = some 0x54B := by decide

/-- M14: the last three bytes, and M15: one further. -/
theorem test_ldB :
    (after ((regs 0xFF 0 0).setI 0xFFD) 0xF033).map (fun t => t.readBytes 0xFFD 3) = some [2, 5, 5] ∧
    fault ((regs 0xFF 0 0).setI 0xFFE) 0xF033 = some (.addressOutOfRange 4096) := by decide

/-- M12: the base is the low twelve bits of `I`. -/
theorem test_ldB_base :
    (after ((regs 0x07 0 0).setI 0x1300) 0xF033).map (fun t => (t.readBytes 0x300 3, t.i)) = some ([0, 0, 7], 0x1300) := by decide

/-- M16's end of memory with two registers, and M17's fault. -/
theorem test_ldMemVx :
    (after ((regs 0xA0 0xA1 0).setI 0xFFE) 0xF155).map (fun t => (t.readBytes 0xFFE 2, t.i)) = some ([0xA0, 0xA1], 0xFFE) ∧
    fault (State.reset.setI 0xFF1) 0xFF55 = some (.addressOutOfRange 4096) := by decide

/-- M21: the stored pair is the next instruction. -/
theorem test_ldMemVx_self_modifying :
    ((after ((regs 0x61 0x2A 0).setI 0x202) 0xF155).bind fun t =>
      match step t with
      | .next u => some (u.getV 1, u.pc)
      | _ => none) = some (0x2A, 0x204) := by decide

/-- M18 (registers above `x` stay) and M19. -/
theorem test_ldVxMem :
    (after ((regs 0x11 0x22 0).setI 0x50) 0xF065).map (fun t => (t.getV 0, t.getV 1, t.i)) = some (0xF0, 0x22, 0x50) ∧
    fault ((regs 0x11 0x22 0).setI 0xFFF) 0xF165 = some (.addressOutOfRange 4096) := by decide

/-- DV13. -/
theorem test_cls :
    (after { State.reset with disp := togglePixel State.reset.disp 31 63, dirty := false } 0x00E0).map
      (fun t => (setColumns t.disp 31, t.dirty, t.pc)) = some ([], true, 0x202) := by decide

/-- DV3: wrap at both edges, and DV7: the sprite does not fit in memory. -/
theorem test_drw_wraps :
    (after ((((regs 60 31 0).putByte 0x300 0xFF).putByte 0x301 0x81).setI 0x300) 0xD012).map
      (fun t => (setColumns t.disp 31, setColumns t.disp 0, t.getV 0xF)) = some ([0, 1, 2, 3, 60, 61, 62, 63], [3, 60], 0) ∧
    fault (State.reset.setI 0xFFF) 0xD012 = some (.addressOutOfRange 4096) := by decide

/-- DV9: collision and bit order. -/
theorem test_drw_collides :
    (after { (State.reset.putByte 0x300 0xA0).setI 0x300 with
        disp := togglePixel (togglePixel State.reset.disp 0 0) 0 1 } 0xD011).map
      (fun t => (setColumns t.disp 0, t.getV 0xF, t.dirty)) = some ([1, 2], 1, true) := by decide

/-- X1. -/
theorem test_ldVxDt : (after (State.reset.setDt 0x2A) 0xF307).map (fun t => (t.getV 3, t.dt)) = some (0x2A, 0x2A) := by decide

/-- X2. -/
theorem test_ldDtVx : (after (regs 3 0 0) 0xF015).map (fun t => (t.dt, t.st)) = some (3, 0) := by decide

/-- X3 and X4. -/
theorem test_ldStVx :
    (after (regs 0x1E 0 0) 0xF018).map (fun t => (t.st, t.soundActive)) = some (0x1E, true) ∧
    (after ((regs 0 0 0).setSt 5) 0xF018).map (fun t => t.soundActive) = some false := by decide

/-- K1 and K6. -/
theorem test_skp :
    pcAfter ((regs 0x1A 0 0).latch 0x0400) 0xE09E = some 0x204 ∧ pcAfter ((regs 7 0 0).latch 0x0140) 0xE09E = some 0x202 := by decide

/-- K2 and K4. -/
theorem test_sknp :
    pcAfter ((regs 0x1A 0 0).latch 0x0400) 0xE0A1 = some 0x202 ∧ pcAfter (regs 5 0 0) 0xE0A1 = some 0x204 := by decide

/-- RN2: whatever is drawn, `kk = 0` gives zero. -/
theorem test_rnd_zero : ((State.reset.setV 1 0x55).randomInto 0xB7 1 0).getV 1 = 0 := by decide

/-- RN3, for the drawn byte 0xB7. -/
theorem test_rnd_mask : (State.reset.randomInto 0xB7 1 0x0F).getV 1 = 7 := by decide

/-- W1: the entering step does not sample the keys. -/
theorem test_ldVxK_waits :
    (after (State.reset.latch 0x1008) 0xFF0A).map (fun t => (t.run, t.pc, t.getV 0xF)) = some (.waitingForKey 0xF, 0x200, 0) := by
  decide

/-- W2: the lowest pressed key, at the next step. -/
theorem test_ldVxK_polls :
    faultOf (step ((State.reset.latch 0x1008).setRun (.waitingForKey 0xF))) = none ∧
    (let t := (State.reset.latch 0x1008).keyWaitPoll 0xF; (t.run, t.pc, t.getV 0xF)) = (.running, 0x202, 3) := by decide

/-- T5, T6 and T8: the fetch at the end of memory, above it, and at an odd address. -/
theorem test_fetch :
    faultOf (step (State.reset.setPc 0xFFF)) = some (.addressOutOfRange 4096) ∧
    faultOf (step (State.reset.setPc 0x10FE)) = some (.addressOutOfRange 0x10FE) ∧
    pcAfter (State.reset.setPc 0x201) 0x6077 = some 0x203 := by decide

/-- E6 and X5. -/
theorem test_tick :
    State.reset.tick = State.reset ∧ ((State.reset.setDt 3).setSt 1).tick = (State.reset.setDt 2).setSt 0 := by decide

/-- T10: after a fault, a `load` and a step run the program loaded. -/
theorem test_load_after_fault :
    (runTransactions [.step, .host (.load [0x60, 0x05]), .step] State.reset).2 = [some (.illegalInstruction 0), none, none] ∧
    (runTransactions [.step, .host (.load [0x60, 0x05]), .step] State.reset).1.getV 0 = 5 := by decide

/-- The codes of R165, and 0 for no fault. -/
theorem test_response_codes :
    responseCode (step State.reset) = 5 ∧ responseCode (exec .ret State.reset) = 4 ∧
    responseCode (exec (.call 0) (depth 16 State.reset)) = 3 ∧ responseCode (step (State.reset.setPc 0xFFF)) = 1 ∧
    responseCode (raiseFault (.programTooLarge 3585)) = 2 ∧ responseCode (exec .cls State.reset) = 0 := by decide

/-- W4 and W5 as one run of the machine: a load, the step that begins the wait, a poll with no key, a tick and a key event
between that step and the next, and the poll that ends the wait. -/
theorem test_schedule_interleaves :
    (match Sys2Proof.core.run 6 { State.reset with
        dt := 5, schedule := [.host (.load [0xF2, 0x0A]), .step, .step, .host .tick, .host (.setKeys 1), .step] } with
      | .next t => some (State.dt t, State.run t, State.pc t, State.schedule t)
      | _ => none) = some (4, .running, 0x202, []) := by decide

/-- Z2: reset restores the font and erases the program. -/
theorem test_reset :
    (((State.reset.putByte 0x50 0x12).putByte 0x200 0x60).setRun (.waitingForKey 1)).resetMove = State.reset := by decide

/-- Z5 and Z6: the font at its lowest and its highest base. -/
theorem test_font_base :
    (State.resetWith ⟨0, .vx⟩).readBytes 0 5 = [0xF0, 0x90, 0x90, 0x90, 0xF0] ∧
    (State.resetWith ⟨0x1B0, .vx⟩).readBytes 0x1FB 6 = [0xF0, 0x80, 0xF0, 0x80, 0x80, 0] := by decide

/-! ## Witnesses: a concrete state and operands that meet the hypotheses of each statement that has some -/

/-- A word that decodes, with the unused `y` of a shift. -/
theorem test_witness_EncodeOfDecodeIsWord : decodeWord 0x8FFE = some (.shl 0xF 0xF) := by decide

/-- A legal and an illegal word, and the row of the legal one. -/
theorem test_witness_DecodeReturnsTheMatchingRow :
    decodeFetched 0x5120 = .ok (.seReg 1 2) ∧ rowNumber (.seReg 1 2) < opcodeMap.length ∧
    decodeFetched 0x5121 = .error (.illegalInstruction 0x5121) ∧ ∃ r ∈ opcodeMap, r.selects 0x5120 = true :=
  ⟨rfl, by decide, rfl, by decide⟩

/-- A key wait; a fetch that fails; a fetched word that is illegal; one that is legal. -/
theorem test_witness_StepRunsDecodedInstruction :
    State.reset.schedule = [] ∧ (State.reset.setRun (.waitingForKey 0xF)).run = .waitingForKey 0xF ∧
    State.reset.run = .running ∧ (State.reset.setPc 0xFFF).fetch = .error (.addressOutOfRange 4096) ∧
    State.reset.fetch = .ok 0 ∧ decodeWord 0 = none ∧ (State.reset.withFetchWord 16 0x00E0).fetch = .ok 0x00E0 ∧
    decodeWord 0x00E0 = some .cls ∧ (State.reset.setSchedule [.step, .host .tick]).schedule = .step :: [.host .tick] ∧
    (State.reset.setSchedule [.host .tick, .step]).schedule = .host .tick :: [.step] :=
  ⟨rfl, rfl, rfl, rfl, rfl, rfl, rfl, rfl, rfl, rfl⟩

/-- A load, a key event and a tick, of which no load is too long; a sequence with steps between the driver's transactions and
none that faults; and one whose next transaction faults. -/
theorem test_witness_HostMovesRunInOrder :
    (State.reset.schedule = [] ∧
      ∀ bytes, HostMove.load bytes ∈ [HostMove.load [0x60, 0x05], .setKeys 1, .tick, .reset] → bytes.length ≤ 3584) ∧
    (∀ a ∈ (runTransactions [.host (.load [0xF2, 0x0A]), .step, .host .tick, .step] State.reset).2, a = none) ∧
    transact .step (runTransactions [.host (.load [0x12, 0x04]), .step] State.reset).1 = .fault (.illegalInstruction 0) := by
  refine ⟨⟨rfl, fun bytes h => ?_⟩, by decide, rfl⟩
  simp only [List.mem_cons, HostMove.load.injEq, reduceCtorEq, List.not_mem_nil, or_false] at h
  subst h
  decide

/-- The last address that fetches, and the first two that do not. -/
theorem test_witness_FetchIsBigEndianAndBounded :
    (State.reset.setPc 0xFFE).pc.toNat ≤ 4094 ∧ (State.reset.setPc 0xFFF).pc.toNat = 4095 ∧
    4096 ≤ (State.reset.setPc 0x1000).pc.toNat := by decide

/-- At the last address that fetches. -/
theorem test_witness_UnmatchedWordFaults :
    (State.reset.setPc 0xFFE).schedule = [] ∧ (State.reset.setPc 0xFFE).run = .running ∧
    (State.reset.setPc 0xFFE).pc.toNat ≤ 4094 ∧
    (0 : Word) = (State.reset.setPc 0xFFE).memByte 0xFFE ++ (State.reset.setPc 0xFFE).memByte 0xFFF ∧ legalWord 0 = false := by
  decide

/-- A jump to itself, and the target no fetch accepts. -/
theorem test_witness_JumpGoesToTarget :
    State.reset.pc.toNat = (0x200 : Addr12).toNat ∧ (State.reset.setPc 0xFFF).pc.toNat = (0xFFF : Addr12).toNat := by decide

/-- The first sum above 4094. -/
theorem test_witness_JumpV0AddsOffset : 4094 < (0xFFE : Addr12).toNat + ((regs 1 0 0).getV 0).toNat := by decide

/-- An empty stack; one entry; a full stack whose top is an address no fetch accepts. -/
theorem test_witness_ReturnPopsAddress :
    decodeWord 0x00EE = some .ret ∧ State.reset.sp.val = 0 ∧ (depth 1 State.reset).sp.val = (0 : Fin 16).val + 1 ∧
    (depth 16 State.reset).sp.val = (15 : Fin 16).val + 1 ∧
    (exec .ret { depth 16 State.reset with stack := State.reset.stack.set 15 0x1000 } =
      .next { depth 15 State.reset with stack := State.reset.stack.set 15 0x1000, pc := 0x1000 }) :=
  ⟨rfl, rfl, rfl, rfl, rfl⟩

/-- A full stack; the last free slot; an empty stack, with another slot beside the one pushed to. -/
theorem test_witness_CallPushesReturnAddress :
    (depth 16 State.reset).sp.val = 16 ∧ (depth 15 State.reset).sp.val = (15 : Fin 16).val ∧
    State.reset.sp.val = (0 : Fin 16).val ∧ (15 : Fin 16) ≠ 0 := by decide

theorem test_witness_CallThenReturnResumes :
    (depth 15 State.reset).sp.val = (15 : Fin 16).val ∧ (0 : Fin 16) ≠ 15 := by decide

/-- A taken skip at the last address that fetches. -/
theorem test_witness_ImmediateSkips :
    (State.reset.setPc 0xFFE).pc.toNat = 4094 ∧ (State.reset.setPc 0xFFE).getV 0xF = 0 := by decide

/-- Registers equal because they are one, and registers that differ; a format `XYN` word with a wrong low nibble. -/
theorem test_witness_RegisterSkips :
    (0xF : Reg) = 0xF ∧ (regs 3 4 0).getV 0 ≠ (regs 3 4 0).getV 1 ∧ decodeWord (formatXYN 0x5 1 2 1) = none := by decide

/-- A next state of each form named. -/
theorem test_witness_ControlTransferFrame :
    ∀ i ∈ [Instr.jp 0xFFF, .jpV0 0xFFF, .seImm 0xF 0, .sneImm 0 1, .seReg 0xF 0, .sneReg 1 1, .skp 0xF, .sknp 0, .call 0,
      .ret], faultOf (exec i (depth 1 State.reset)) = none := by decide

/-- VF as destination, and an immediate of zero. -/
theorem test_witness_AddImmediateWraps : (0 : Byte) = 0 ∧ (0xF : Reg) ≠ 0 := by decide

/-- The destination is not VF; and it is. -/
theorem test_witness_AddRegistersSetsCarry :
    (0 : Reg) ≠ 0xF ∧ 255 < ((regs 0xFF 1 0).getV 0).toNat + ((regs 0xFF 1 0).getV 1).toNat ∧
    ¬ 255 < ((regs 0xFE 1 0).getV 0).toNat + ((regs 0xFE 1 0).getV 1).toNat := by decide

/-- The destination is not VF; equal operands, and a borrow. -/
theorem test_witness_SubtractionsSetNotBorrow :
    (0 : Reg) ≠ 0xF ∧ ((regs 7 7 0).getV 0).toNat ≥ ((regs 7 7 0).getV 1).toNat ∧
    ¬ ((regs 7 8 0).getV 0).toNat ≥ ((regs 7 8 0).getV 1).toNat := by decide

/-- The source under each value of the parameter. -/
theorem test_witness_ShiftsMoveOneBitOut :
    (0x81 : Byte) = (if (shiftsVy (regs 5 0x81 0)).params.shiftSource = .vy then (shiftsVy (regs 5 0x81 0)).getV 1
      else (shiftsVy (regs 5 0x81 0)).getV 0) ∧
    (5 : Byte) = (if (regs 5 0x81 0).params.shiftSource = .vy then (regs 5 0x81 0).getV 1 else (regs 5 0x81 0).getV 0) ∧
    (0 : Reg) ≠ 0xF := by decide

/-- The last glyph and its last row. -/
theorem test_witness_GlyphAddressPointsAtGlyph : ((regs 15 0 0).getV 0).toNat < 16 ∧ 4 < 5 := by decide

/-- The last base that fits, and the next one, which does not. -/
theorem test_witness_StoreBcdWritesDigits :
    (State.reset.setI 0xFFD).i.toNat % 4096 + 2 ≤ 4095 ∧ (State.reset.setI 0xFFE).i.toNat % 4096 + 2 > 4095 := by decide

/-- All sixteen registers at the last base that fits, and at the next one. -/
theorem test_witness_StoreRegistersWritesAscending :
    (State.reset.setI 0xFF0).i.toNat % 4096 + (0xF : Reg).val ≤ 4095 ∧ (0xF : Reg) ≤ 0xF ∧
    (State.reset.setI 0xFF1).i.toNat % 4096 + (0xF : Reg).val > 4095 := by decide

/-- One register at the last byte of memory, with registers above it; two registers there do not fit. -/
theorem test_witness_LoadRegistersReadsAscending :
    (State.reset.setI 0xFFF).i.toNat % 4096 + (0 : Reg).val ≤ 4095 ∧ (0 : Reg) ≤ 0 ∧ (0 : Reg) < 1 ∧
    (State.reset.setI 0xFFF).i.toNat % 4096 + (1 : Reg).val > 4095 := by decide

/-- A next state of each form named. -/
theorem test_witness_NonStoringInstructionFrame :
    ∀ i ∈ [Instr.ldImm 0xF 1, .addImm 0 1, .ldReg 0 1, .orReg 0 1, .andReg 0 1, .xorReg 0 1, .ldVxDt 0xF, .addReg 0xF 1,
      .subReg 0 1, .shr 0 1, .subn 0 1, .shl 0 1, .ldI 0xFFF, .addI 0, .ldF 0, .ldDtVx 0, .ldStVx 0],
      faultOf (exec i State.reset) = none := by decide

/-- The stores at the last base that fits. -/
theorem test_witness_StoringInstructionFrame :
    (∃ t, exec (.ldB 0) (State.reset.setI 0xFFD) = .next t) ∧ ∃ t, exec (.ldMemVx 0xF) (State.reset.setI 0xFF0) = .next t :=
  ⟨⟨_, rfl⟩, _, rfl⟩

theorem test_witness_StoreThenLoadRestoresRegisters :
    (∃ t, exec (.ldMemVx 1) ((regs 1 2 3).setI 0xFFE) = .next t) ∧ (1 : Reg) ≤ 1 ∧ (1 : Reg) < 0xF :=
  ⟨⟨_, rfl⟩, by decide, by decide⟩

/-- M21: `F155` at 0x200 with `I = 0x202` stores the pair at the next instruction's address. -/
theorem test_witness_StoredBytesAreFetchedNext :
    (∃ t, exec (.ldMemVx 1) ((regs 0x61 0x2A 0).setI 0x202) = .next t ∧
      t.pc.toNat = ((regs 0x61 0x2A 0).setI 0x202).baseAddr + (0 : Reg).val) ∧ (1 : Reg).val = (0 : Reg).val + 1 ∧ (1 : Reg) ≤ 1 :=
  ⟨⟨_, rfl, rfl⟩, rfl, by decide⟩

/-- Two states that differ outside memory. -/
theorem test_witness_CanonicalMemoryIsDeterminedByReads :
    State.reset.params = (State.reset.setPc 0).params ∧ (State.reset.putByte 0xFFF 7).memCanonical ∧
    ((State.reset.setPc 0).putByte 0xFFF 7).memCanonical ∧
    memSame (State.reset.putByte 0xFFF 7) ((State.reset.setPc 0).putByte 0xFFF 7) :=
  ⟨rfl, by decide, by decide, fun _ => rfl⟩

/-- A one-row sprite at the last byte of memory, and the tallest sprite at the last base that fits. -/
theorem test_witness_DrawIsXorWithCollision :
    (State.reset.setI 0xFFF).i.toNat % 4096 + (1 : Nibble).toNat ≤ 4096 ∧
    (State.reset.setI 0xFF1).i.toNat % 4096 + (15 : Nibble).toNat ≤ 4096 := by decide

/-- A cell the sprite covers. -/
theorem test_witness_spriteCovers : spriteCovers (State.reset.setI 0x50) 0 1 5 0 3 :=
  ⟨0, 3, by decide, by decide, by decide, by decide, by decide⟩

theorem test_witness_DrawingTwiceRestoresDisplay :
    (0xE : Reg) ≠ 0xF ∧ (0 : Reg) ≠ 0xF ∧ (State.reset.setI 0xFF1).i.toNat % 4096 + (15 : Nibble).toNat ≤ 4096 := by decide

/-- DV7 and DV6. -/
theorem test_witness_DrawBoundsAndEmptySprite :
    (2 : Nibble) ≠ 0 ∧ (State.reset.setI 0xFFF).i.toNat % 4096 + (2 : Nibble).toNat - 1 > 4095 ∧ (0 : Nibble) = 0 := by decide

theorem test_witness_DisplayInstructionFrame :
    (∃ t, exec .cls State.reset = .next t) ∧ ∃ t, exec (.drw 0xF 0xF 1) (State.reset.setI 0xFFF) = .next t :=
  ⟨⟨_, rfl⟩, _, rfl⟩

/-- K1: the low four bits. -/
theorem test_witness_KeySkips : (0xA : Fin 16).val = ((regs 0x1A 0 0).getV 0).toNat % 16 := by decide

theorem test_witness_RandomIsMasked : (0 : Byte) = 0 := rfl

/-- W1: keys 3 and 12, and the highest key alone. -/
theorem test_witness_WaitForKeyTakesTwoSteps :
    (State.reset.latch 0x1008).schedule = [] ∧ (State.reset.latch 0x1008).keys[(3 : Fin 16)] = true ∧
    (∀ j : Fin 16, j < 3 → (State.reset.latch 0x1008).keys[j] = false) ∧
    (State.reset.latch 0x8000).keys[(15 : Fin 16)] = true ∧
    (∀ j : Fin 16, j < 15 → (State.reset.latch 0x8000).keys[j] = false) := by decide

/-- W5: key 0; and W3: no key. -/
theorem test_witness_KeyWaitPollTakesLowestKey :
    ((State.reset.latch 1).setRun (.waitingForKey 2)).schedule = [] ∧
    ((State.reset.latch 1).setRun (.waitingForKey 2)).run = .waitingForKey 2 ∧
    ((State.reset.latch 1).setRun (.waitingForKey 2)).keys[(0 : Fin 16)] = true ∧
    (∀ j : Fin 16, j < 0 → ((State.reset.latch 1).setRun (.waitingForKey 2)).keys[j] = false) ∧
    ∀ k : Fin 16, (State.reset.setRun (.waitingForKey 2)).keys[k] = false := by decide

theorem test_witness_KeyWaitIgnoresMemory : (State.reset.setRun (.waitingForKey 0xF)).run = .waitingForKey 0xF := rfl

/-- E7: the longest program, the first that is too long, the empty one; and an address of the longest one. -/
theorem test_witness_LoadCopiesProgram :
    (List.replicate 3584 (0 : Byte)).length ≤ 3584 ∧ (List.replicate 3585 (0 : Byte)).length > 3584 ∧
    3583 < (List.replicate 3584 (0 : Byte)).length ∧ ([] : List Byte) = [] := by
  rw [List.length_replicate, List.length_replicate]
  exact ⟨by decide, by decide, by decide, rfl⟩

/-- Z3: two bytes and then one. -/
theorem test_witness_SecondLoadOverwritesItsBytes :
    ([0xA2, 0x1E] : List Byte).length ≤ 3584 ∧ ([0x60] : List Byte).length ≤ ([0xA2, 0x1E] : List Byte).length := by decide

/-- The last font byte at the highest base, and the bytes around it. -/
theorem test_witness_ResetStateValues :
    79 < 80 ∧ (0x1AF < (⟨0x1B0, .vy⟩ : Params).fontBase.val) ∧ (⟨0x1B0, .vy⟩ : Params).fontBase.val + 80 ≤ 0x200 := by decide

/-- The invariant holds at reset and after a store, in a key wait, and a step is taken from each. -/
theorem test_witness_StepKeepsInvariant :
    State.reset.Inv ∧ (State.reset.withFetchWord 16 0xFF0A).Inv ∧
    (∃ t, step (State.reset.withFetchWord 16 0xFF0A) = .next t) ∧ (State.reset.setRun (.waitingForKey 0xF)).Inv ∧
    ∃ t, step (State.reset.setRun (.waitingForKey 0xF)) = .next t :=
  ⟨by decide, by decide, ⟨_, rfl⟩, by decide, _, rfl⟩

theorem test_witness_FaultPersists : stepTransaction State.reset = .fault (.illegalInstruction 0) := rfl

/-- Each of the faults. -/
theorem test_witness_OnlySixInstructionsFault :
    exec .ret State.reset = .fault .stackUnderflow ∧ exec (.call 0) (depth 16 State.reset) = .fault .stackOverflow ∧
    exec (.drw 0 0 2) (State.reset.setI 0xFFF) = .fault (.addressOutOfRange 4096) ∧
    exec (.ldB 0) (State.reset.setI 0xFFE) = .fault (.addressOutOfRange 4096) ∧
    exec (.ldMemVx 0xF) (State.reset.setI 0xFF1) = .fault (.addressOutOfRange 4096) ∧
    exec (.ldVxMem 1) (State.reset.setI 0xFFF) = .fault (.addressOutOfRange 4096) := ⟨rfl, rfl, rfl, rfl, rfl, rfl⟩

/-- A state each piece of which some instruction changes. -/
theorem test_witness_WritersOfEachPieceOfState :
    let s := depth 1 ((regs 1 0 0).clearDirty.setI 0x300)
    (∃ t, exec (.ldImm 0 7) s = .next t ∧ t.v ≠ s.v ∧ t.pc ≠ s.pc) ∧ (∃ t, exec (.jp 0) s = .next t ∧ t.pc ≠ s.pc + 2) ∧
    (∃ t, exec (.ldB 0) s = .next t ∧ t.mem ≠ s.mem) ∧ (∃ t, exec .cls s = .next t ∧ t.dirty ≠ s.dirty) ∧
    (∃ t, exec (.ldI 0) s = .next t ∧ t.i ≠ s.i) ∧ (∃ t, exec .ret s = .next t ∧ t.sp ≠ s.sp) ∧
    (∃ t, exec (.ldVxK 0) s = .next t ∧ t.run ≠ s.run) ∧ (∃ t, exec (.ldDtVx 0) s = .next t ∧ t.dt ≠ s.dt) ∧
    (∃ t, exec (.ldStVx 0) s = .next t ∧ t.st ≠ s.st) ∧ (∃ t, exec (.rnd 0 0) s = .next t ∧ t.draws ≠ s.draws) :=
  ⟨⟨_, rfl, by decide⟩, ⟨_, rfl, by decide⟩, ⟨_, rfl, by decide⟩, ⟨_, rfl, by decide⟩, ⟨_, rfl, by decide⟩,
    ⟨_, rfl, by decide⟩, ⟨_, rfl, by decide⟩, ⟨_, rfl, by decide⟩, ⟨_, rfl, by decide⟩, ⟨_, rfl, by decide⟩⟩

theorem test_witness_WritersOfTheFlagRegister :
    ∃ t, exec (.addReg 0 1) (regs 0xFF 1 0) = .next t ∧ t.getV 0xF ≠ (regs 0xFF 1 0).getV 0xF := ⟨_, rfl, by decide⟩

end Sys2Proof.Tests
end

section
/-! PROOFS. The rows of the opcode map and the decoder agree: a decoded word is the encoding of what it decodes to, and a word
decodes exactly when some row selects it (R74, R76, R78, R93). -/

namespace Sys2Proof.Proofs

open Sys2Proof Sys2Proof.Machine Sys2Proof.Laws

/-! ## A word is the format of its fields, with the fields R76 compares written as values -/

section
variable {op : Word} {t : Nibble}

theorem formatA_of_top (ht : (fieldTop op).toNat = t.toNat) : formatA t (fieldNNN op) = op := by
  rw [← BitVec.eq_of_toNat_eq ht, formatA_fields]

theorem formatXK_of_top (ht : (fieldTop op).toNat = t.toNat) : formatXK t (fieldX op) (fieldKK op) = op := by
  rw [← BitVec.eq_of_toNat_eq ht, formatXK_fields]

theorem formatXYN_of_top (ht : (fieldTop op).toNat = t.toNat) :
    formatXYN t (fieldX op) (fieldY op) (fieldN op) = op := by
  rw [← BitVec.eq_of_toNat_eq ht, formatXYN_fields]

theorem formatXYN_of_top_n {n : Nibble} (ht : (fieldTop op).toNat = t.toNat) (hn : (fieldN op).toNat = n.toNat) :
    formatXYN t (fieldX op) (fieldY op) n = op := by
  rw [← BitVec.eq_of_toNat_eq hn, formatXYN_of_top ht]

theorem formatXK_of_top_kk {kk : Byte} (ht : (fieldTop op).toNat = t.toNat) (hk : (fieldKK op).toNat = kk.toNat) :
    formatXK t (fieldX op) kk = op := by
  rw [← BitVec.eq_of_toNat_eq hk, formatXK_of_top ht]

end

/-! ## Every word that decodes is the encoding of what it decodes to -/

section
variable {op : Word} {i : Instr}

theorem encode_of_decode0 (h : decode0 op = some i) : encode i = op := by
  unfold decode0 at h
  split_ifs at h with h1 h2
  · cases h; exact h1.symm
  · cases h; exact h2.symm

theorem encode_of_decode8 (ht : (fieldTop op).toNat = 0x8) (h : decode8 op = some i) : encode i = op := by
  unfold decode8 at h
  split at h
  case h_10 => cases h
  all_goals
    next hn => cases h; exact formatXYN_of_top_n ht hn

theorem encode_of_decodeE (ht : (fieldTop op).toNat = 0xE) (h : decodeE op = some i) : encode i = op := by
  unfold decodeE at h
  split_ifs at h with h1 h2
  · cases h; exact formatXK_of_top_kk ht (congrArg BitVec.toNat h1)
  · cases h; exact formatXK_of_top_kk ht (congrArg BitVec.toNat h2)

theorem encode_of_decodeF (ht : (fieldTop op).toNat = 0xF) (h : decodeF op = some i) : encode i = op := by
  unfold decodeF at h
  split at h
  case h_10 => cases h
  all_goals
    next hk => cases h; exact formatXK_of_top_kk ht hk

/-- No bit of a word that decodes is dropped: one case for each major opcode of R76. -/
theorem encode_of_decodeWord (h : decodeWord op = some i) : encode i = op := by
  unfold decodeWord at h
  split at h
  case h_1 => exact encode_of_decode0 h
  case h_2 | h_3 | h_11 | h_12 => next ht => cases h; exact formatA_of_top ht
  case h_4 | h_5 | h_7 | h_8 | h_13 => next ht => cases h; exact formatXK_of_top ht
  case h_6 | h_10 =>
    next ht =>
      split_ifs at h with hn
      cases h
      exact formatXYN_of_top_n ht (congrArg BitVec.toNat hn)
  case h_9 ht => exact encode_of_decode8 ht h
  case h_14 ht => cases h; exact formatXYN_of_top ht
  case h_15 ht => exact encode_of_decodeE ht h
  case h_16 =>
    have ht : (fieldTop op).toNat = 0xF := by
      have := (fieldTop op).isLt
      simp only [imp_false] at *
      omega
    exact encode_of_decodeF ht h

end

/-! ## Whether a word decodes is settled by the fields R76 compares -/

section
variable {op v : Word}

theorem isSome_decode8_congr (hn : fieldN op = fieldN v) : (decode8 op).isSome = (decode8 v).isSome := by
  unfold decode8
  rw [hn]
  split <;> rfl

theorem isSome_decodeE_congr (hk : fieldKK op = fieldKK v) : (decodeE op).isSome = (decodeE v).isSome := by
  unfold decodeE
  rw [hk]
  split_ifs <;> rfl

theorem isSome_decodeF_congr (hk : fieldKK op = fieldKK v) : (decodeF op).isSome = (decodeF v).isSome := by
  unfold decodeF
  rw [hk]
  split <;> rfl

/-- Major opcodes for which the rest of the word is operands alone. -/
theorem isSome_decodeWord_of_top (h : fieldTop op ∈ [0x1#4, 0x2, 0x3, 0x4, 0x6, 0x7, 0xA, 0xB, 0xC, 0xD]) :
    (decodeWord op).isSome = true := by
  simp only [List.mem_cons, List.not_mem_nil, or_false] at h
  unfold decodeWord
  rcases h with h | h | h | h | h | h | h | h | h | h <;> rw [h] <;> rfl

/-- Major opcodes for which `op[3:0]` is compared. -/
theorem isSome_decodeWord_congr_n (ht : fieldTop op = fieldTop v) (hn : fieldN op = fieldN v)
    (h : fieldTop v = 0x5 ∨ fieldTop v = 0x8 ∨ fieldTop v = 0x9) :
    (decodeWord op).isSome = (decodeWord v).isSome := by
  have hite : ∀ i j : Instr, (if fieldN v = 0#4 then some i else none).isSome =
      (if fieldN v = 0#4 then some j else none).isSome := by
    intro i j
    split_ifs <;> rfl
  unfold decodeWord
  rw [ht, hn]
  rcases h with h | h | h <;> rw [h]
  · exact hite _ _
  · exact isSome_decode8_congr hn
  · exact hite _ _

/-- Major opcodes for which `op[7:0]` is compared. -/
theorem isSome_decodeWord_congr_kk (ht : fieldTop op = fieldTop v) (hk : fieldKK op = fieldKK v)
    (h : fieldTop v = 0xE ∨ fieldTop v = 0xF) : (decodeWord op).isSome = (decodeWord v).isSome := by
  unfold decodeWord
  rw [ht]
  rcases h with h | h <;> rw [h]
  · exact isSome_decodeE_congr hk
  · exact isSome_decodeF_congr hk

/-! ## A word decodes exactly when some row selects it -/

/-- The value of a row lies within its mask, and it is itself a word that decodes. -/
theorem opcodeMap_value {r : OpcodeRow} (hr : r ∈ opcodeMap) :
    r.value &&& r.mask = r.value ∧ (decodeWord r.value).isSome = true := by
  revert r
  decide

/-- The mask of a row of R75 is the one that R76 compares under for the row's major opcode. -/
theorem opcodeMap_mask {r : OpcodeRow} (hr : r ∈ opcodeMap) :
    r.mask = 0xFFFF ∨
    r.mask = 0xF000 ∧ fieldTop r.value ∈ [0x1#4, 0x2, 0x3, 0x4, 0x6, 0x7, 0xA, 0xB, 0xC, 0xD] ∨
    r.mask = 0xF00F ∧ (fieldTop r.value = 0x5 ∨ fieldTop r.value = 0x8 ∨ fieldTop r.value = 0x9) ∨
    r.mask = 0xF0FF ∧ (fieldTop r.value = 0xE ∨ fieldTop r.value = 0xF) := by
  revert r
  decide

/-- A selected word agrees with the row's value on every field R76 compares, and the row's value decodes. -/
theorem isSome_decodeWord_of_selects {r : OpcodeRow} (hr : r ∈ opcodeMap) (h : r.selects op = true) :
    (decodeWord op).isSome = true := by
  obtain ⟨hwf, hsome⟩ := opcodeMap_value hr
  have hmask := opcodeMap_mask hr
  obtain ⟨m, v⟩ := r
  dsimp only at hwf hsome hmask
  rcases hmask with rfl | ⟨rfl, htop⟩ | ⟨rfl, htop⟩ | ⟨rfl, htop⟩
  · rwa [(selects_FFFF op v).1 h]
  · have ht := (selects_F000 op v hwf).1 h
    exact isSome_decodeWord_of_top (ht ▸ htop)
  · obtain ⟨ht, hn⟩ := (selects_F00F op v hwf).1 h
    rwa [isSome_decodeWord_congr_n ht hn htop]
  · obtain ⟨ht, hk⟩ := (selects_F0FF op v hwf).1 h
    rwa [isSome_decodeWord_congr_kk ht hk htop]

end

/-- The 34 laws `OwnRow.<instruction>` as one: the encoding of any instruction selects its own row and no other (R74, R75). -/
theorem ownRow (i : Instr) : OwnRow.Statement i := by
  cases i with
  | cls => exact OwnRow.cls
  | ret => exact OwnRow.ret
  | jp nnn => exact OwnRow.jp nnn
  | call nnn => exact OwnRow.call nnn
  | seImm x kk => exact OwnRow.seImm x kk
  | sneImm x kk => exact OwnRow.sneImm x kk
  | seReg x y => exact OwnRow.seReg x y
  | ldImm x kk => exact OwnRow.ldImm x kk
  | addImm x kk => exact OwnRow.addImm x kk
  | ldReg x y => exact OwnRow.ldReg x y
  | orReg x y => exact OwnRow.orReg x y
  | andReg x y => exact OwnRow.andReg x y
  | xorReg x y => exact OwnRow.xorReg x y
  | addReg x y => exact OwnRow.addReg x y
  | subReg x y => exact OwnRow.subReg x y
  | shr x y => exact OwnRow.shr x y
  | subn x y => exact OwnRow.subn x y
  | shl x y => exact OwnRow.shl x y
  | sneReg x y => exact OwnRow.sneReg x y
  | ldI nnn => exact OwnRow.ldI nnn
  | jpV0 nnn => exact OwnRow.jpV0 nnn
  | rnd x kk => exact OwnRow.rnd x kk
  | drw x y n => exact OwnRow.drw x y n
  | skp x => exact OwnRow.skp x
  | sknp x => exact OwnRow.sknp x
  | ldVxDt x => exact OwnRow.ldVxDt x
  | ldVxK x => exact OwnRow.ldVxK x
  | ldDtVx x => exact OwnRow.ldDtVx x
  | ldStVx x => exact OwnRow.ldStVx x
  | addI x => exact OwnRow.addI x
  | ldF x => exact OwnRow.ldF x
  | ldB x => exact OwnRow.ldB x
  | ldMemVx x => exact OwnRow.ldMemVx x
  | ldVxMem x => exact OwnRow.ldVxMem x

/-- The rows that select a word that decodes: the row of what it decodes to, and no other. -/
theorem selects_iff_rowNumber {op : Word} {i : Instr} (h : decodeWord op = some i) (k : Nat) (hk : k < opcodeMap.length) :
    opcodeMap[k].selects op = true ↔ k = rowNumber i := by
  rw [← encode_of_decodeWord h]
  exact ownRow i k hk

theorem isSome_decodeWord_iff (op : Word) :
    (decodeWord op).isSome = true ↔ ∃ r ∈ opcodeMap, r.selects op = true := by
  constructor
  · intro h
    obtain ⟨i, hi⟩ := Option.isSome_iff_exists.1 h
    exact ⟨_, List.getElem_mem (rowNumber_lt i), (selects_iff_rowNumber hi _ _).2 rfl⟩
  · rintro ⟨r, hr, hsel⟩
    exact isSome_decodeWord_of_selects hr hsel

/-! ## Decoding a fetched word -/

theorem decodeFetched_eq_ok_iff (op : Word) (i : Instr) : decodeFetched op = .ok i ↔ decodeWord op = some i := by
  cases h : decodeWord op <;> simp [decodeFetched, h]

theorem decodeFetched_eq_error_iff (op : Word) (f : Fault) :
    decodeFetched op = .error f ↔ decodeWord op = none ∧ f = .illegalInstruction op := by
  cases h : decodeWord op <;> simp [decodeFetched, h, eq_comm]

/-- Settles O3: a word that decodes is the encoding of its instruction, which selects its own row alone; a word that some row
selects decodes. -/
theorem decodeReturnsTheMatchingRow : Obligations.DecodeReturnsTheMatchingRow := by
  intro op
  refine ⟨fun i hi k hk => ?_, fun f hf => ?_, ?_⟩
  · exact selects_iff_rowNumber ((decodeFetched_eq_ok_iff op i).1 hi) k hk
  · exact ((decodeFetched_eq_error_iff op f).1 hf).2
  · simp only [decodeFetched_eq_ok_iff, ← Option.isSome_iff_exists]
    exact isSome_decodeWord_iff op

end Sys2Proof.Proofs
end

section
/-! PROOFS. Control transfer (41_flow.md): where jumps, the return and the skips lead, and that the next fetch faults past
the end of memory. -/

namespace Sys2Proof.Proofs

open Sys2Proof Sys2Proof.Machine

/-! ## Decoding is left inverse to encoding -/

/-- The fields of a format are what it was made of, and they select the instruction's own branch of R76: the whole word, the
low nibble, the low byte, or the major opcode alone. -/
theorem decodeWord_encode (i : Instr) : decodeWord (encode i) = some i := by
  cases i
  case cls | ret => rfl
  case ldReg | orReg | andReg | xorReg | addReg | subReg | shr | subn | shl => simp [encode, decodeWord, decode8]
  case skp | sknp => simp [encode, decodeWord, decodeE]
  case ldVxDt | ldVxK | ldDtVx | ldStVx | addI | ldF | ldB | ldMemVx | ldVxMem => simp [encode, decodeWord, decodeF]
  all_goals simp [encode, decodeWord]

theorem decodeWord_eq_some_iff (op : Word) (i : Instr) : decodeWord op = some i ↔ op = encode i :=
  ⟨fun h => (encode_of_decodeWord h).symm, fun h => h ▸ decodeWord_encode i⟩

/-- Major opcode 5 is legal with low nibble 0 alone (R75, R78). -/
theorem decodeWord_formatXYN_5 (x y : Reg) (n : Nibble) :
    decodeWord (formatXYN 0x5 x y n) = if n = 0 then some (.seReg x y) else none := by
  simp [decodeWord]

/-- Major opcode 9 is legal with low nibble 0 alone (R75, R78). -/
theorem decodeWord_formatXYN_9 (x y : Reg) (n : Nibble) :
    decodeWord (formatXYN 0x9 x y n) = if n = 0 then some (.sneReg x y) else none := by
  simp [decodeWord]

/-! ## The program counter -/

section
variable {s : State}

/-- A machine left with `PC` above 4094 faults at its next fetch (R92). -/
theorem nextFetchFaults_of_pc (h : 4094 < s.pc.toNat) : nextFetchFaults s := by
  intro hrun
  obtain ⟨a, ha⟩ := State.fetch_above h
  exact ⟨a, stepTransaction_fetch_error hrun ha⟩

theorem setPc_eq_self {w : Word} (h : s.pc.toNat = w.toNat) : s.setPc w = s := by
  rw [← BitVec.eq_of_toNat_eq h]
  rfl

theorem skipIf_beq_pc (a b : Byte) : (s.skipIf (a == b)).pc = if a = b then s.pc + 4 else s.pc + 2 := by
  simp

theorem skipIf_bne_pc (a b : Byte) : (s.skipIf (a != b)).pc = if a ≠ b then s.pc + 4 else s.pc + 2 := by
  simp

theorem execRet_underflow (h : s.sp.val = 0) : execRet s = .fault .stackUnderflow := by
  simp only [execRet, s.pop_underflow h, raiseFault]

end

/-! ## Jumps and the return -/

/-- Settles O9: the target is the field itself, read as 16 bits. -/
theorem jumpGoesToTarget : Obligations.JumpGoesToTarget := by
  intro nnn s
  have hpc : (s.setPc (zext16 nnn)).pc.toNat = nnn.toNat := zext16_toNat nnn
  refine ⟨decodeWord_encode (.jp nnn), s.setPc (zext16 nnn), rfl, rfl, hpc, fun h => ?_, fun h => ?_⟩
  · exact setPc_eq_self (h.trans (zext16_toNat nnn).symm)
  · refine nextFetchFaults_of_pc ?_
    rw [hpc, h]
    decide

/-- Settles O10: the sum is below 65536, so that the 16 bits of `PC` hold it unreduced. -/
theorem jumpV0AddsOffset : Obligations.JumpV0AddsOffset := by
  intro nnn s
  have hpc : (s.setPc (s.jumpSum nnn)).pc.toNat = nnn.toNat + (s.getV 0).toNat := s.jumpSum_toNat nnn
  refine ⟨decodeWord_encode (.jpV0 nnn), s.setPc (s.jumpSum nnn), rfl, rfl, hpc, fun h => ?_⟩
  exact nextFetchFaults_of_pc (hpc ▸ h)

/-- Settles O11: the two answers of a pop, on an empty stack and below an occupied slot. -/
theorem returnPopsAddress : Obligations.ReturnPopsAddress := by
  intro s
  refine ⟨fun op => decodeWord_eq_some_iff op .ret, fun h => ?_, fun j h => ?_⟩
  · have hfault : exec .ret s = .fault .stackUnderflow := execRet_underflow h
    rw [hfault]
    exact ⟨rfl, rfl⟩
  · exact ⟨_, execRet_ok j h, rfl, rfl, rfl, nextFetchFaults_of_pc⟩

/-! ## Skips -/

/-- Settles O14: a skip taken at 4094 lands past the end of memory. -/
theorem immediateSkips : Obligations.ImmediateSkips := by
  intro x kk s
  refine ⟨decodeWord_encode (.seImm x kk), decodeWord_encode (.sneImm x kk), ?_, ?_⟩
  · have hpc := skipIf_beq_pc (s := s) (s.getV x) kk
    refine ⟨s.skipIf (s.getV x == kk), rfl, rfl, hpc, fun h4094 heq => ?_⟩
    have h4098 : (s.skipIf (s.getV x == kk)).pc.toNat = 4098 := by
      rw [hpc, if_pos heq, BitVec.toNat_add, h4094]
      rfl
    exact ⟨h4098, nextFetchFaults_of_pc (by omega)⟩
  · exact ⟨s.skipIf (s.getV x != kk), rfl, rfl, skipIf_bne_pc _ _⟩

/-- Settles O15: a register equals itself, which decides both skips when `x = y`. -/
theorem registerSkips : Obligations.RegisterSkips := by
  intro x y s
  refine ⟨decodeWord_formatXYN_5 x y, decodeWord_formatXYN_9 x y, ?_, ?_⟩
  · have hpc := skipIf_beq_pc (s := s) (s.getV x) (s.getV y)
    exact ⟨s.skipIf (s.getV x == s.getV y), rfl, rfl, hpc, fun hxy => hpc.trans (if_pos (hxy ▸ rfl))⟩
  · have hpc := skipIf_bne_pc (s := s) (s.getV x) (s.getV y)
    exact ⟨s.skipIf (s.getV x != s.getV y), rfl, rfl, hpc, fun hxy => hpc.trans (if_neg (not_not.2 (hxy ▸ rfl)))⟩

end Sys2Proof.Proofs
end

section
/-! PROOFS. Register load and the ALU (42_alu.md): an instruction that writes one register, and the sum with an immediate. -/

namespace Sys2Proof.Proofs

open Sys2Proof Sys2Proof.Machine

/-! ## Writing one register -/

section
variable (s : State) (x : Reg)

/-- The frame of an instruction that writes `V[x]` and advances. -/
theorem regsSameExcept_setV_advance (b : Byte) : regsSameExcept s (s.setV x b).advance [x] := by
  intro r hr
  rw [State.advance_getV]
  exact s.setV_getV_of_ne x r b (List.ne_of_not_mem_cons hr)

theorem setV_getV_eq_self : s.setV x (s.getV x) = s := by
  simp [State.setV, State.getV]

end

/-! ## The sum with an immediate -/

theorem addResult_zero (a : Byte) : addResult a 0 = a := by
  simp [addResult]

/-- Settles O18: a sum with 0 writes back what the register held, which leaves the advance alone. -/
theorem addImmediateWraps : Obligations.AddImmediateWraps := by
  intro x kk s
  refine ⟨decodeWord_encode (.addImm x kk), (s.setV x (addResult (s.getV x) kk)).advance, rfl, ?_, rfl,
    regsSameExcept_setV_advance s x _, rfl, fun h0 => ?_⟩
  · rw [State.advance_getV, State.setV_getV_self, addResult_toNat]
  · rw [h0, addResult_zero, setV_getV_eq_self]
    rfl

end Sys2Proof.Proofs
end

section
/-! PROOFS. The address register and memory (43_index_memory.md): the load of `I`. -/

namespace Sys2Proof.Proofs

open Sys2Proof Sys2Proof.Machine

/-- Settles O23: the 12 bits of the field keep their value in the 16 bits of `I`. -/
theorem loadIndex : Obligations.LoadIndex := by
  intro nnn s
  have hi : (s.setI (zext16 nnn)).advance.i.toNat = nnn.toNat := zext16_toNat nnn
  exact ⟨decodeWord_encode (.ldI nnn), (s.setI (zext16 nnn)).advance, rfl, hi, rfl, rfl⟩

end Sys2Proof.Proofs
end

section
/-! PROOFS. Timers (45_timer_key_random.md): the read of `DT` and the writes of `DT` and `ST`. -/

namespace Sys2Proof.Proofs

open Sys2Proof Sys2Proof.Machine

/-- Settles O40: the sound output follows the `ST` that `Fx18` has just written, so it is on exactly when `V[x]` is above zero. -/
theorem timerAccess : Obligations.TimerAccess := by
  intro x s
  refine ⟨decodeWord_encode (.ldVxDt x), decodeWord_encode (.ldDtVx x), decodeWord_encode (.ldStVx x), ?_, ?_, ?_⟩
  · have hv : (s.setV x s.dt).advance.getV x = s.dt := by rw [State.advance_getV, State.setV_getV_self]
    exact ⟨(s.setV x s.dt).advance, rfl, hv, rfl, regsSameExcept_setV_advance s x s.dt, rfl⟩
  · exact ⟨(s.setDt (s.getV x)).advance, rfl, rfl, rfl, rfl⟩
  · have hsound : (s.setSt (s.getV x)).advance.soundActive = true ↔ 0 < (s.getV x).toNat := by
      rw [State.soundActive_iff, State.advance_st, State.setSt_st]
    exact ⟨(s.setSt (s.getV x)).advance, rfl, rfl, rfl, rfl, hsound⟩

end Sys2Proof.Proofs
end

section
/-! PROOFS. The driver's transactions (60_exceptions.md): `tick` on the timers and `set_keys` on the latch. -/

namespace Sys2Proof.Proofs

open Sys2Proof Sys2Proof.Machine

/-- Settles O46: each timer is counted down by one, which at 0 stays 0. -/
theorem tickLowersTimers : Obligations.TickLowersTimers := by
  intro s
  have hdt : s.tick.dt.toNat = s.dt.toNat - 1 := countDown_toNat s.dt
  have hst : s.tick.st.toNat = s.st.toNat - 1 := countDown_toNat s.st
  exact ⟨s.tick, rfl, hdt, hst, rfl⟩

/-- Settles O48: bit `j` of the new latch is bit `j` of `k`, whatever the latch held. -/
theorem setKeysReplacesLatch : Obligations.SetKeysReplacesLatch := by
  intro k s
  have hkeys : ∀ j : Fin 16, (s.latch k).keys[j] = k.getLsbD j.val := latchOf_getElem k
  exact ⟨s.latch k, rfl, hkeys, rfl⟩

end Sys2Proof.Proofs
end

section
/-! PROOFS. Encoding (30_encoding.md): decoding and encoding are inverse to each other. -/

namespace Sys2Proof.Proofs

open Sys2Proof Sys2Proof.Machine

/-- Settles O1: decoding two bytes is decoding their word, and the word of an instruction decodes to it. -/
theorem decodeOfEncodeIsInstruction : Obligations.DecodeOfEncodeIsInstruction := by
  intro i rest
  rw [encodeBytes, decode_bytesOfWord, decodeWord_encode]

/-- Settles O2. -/
theorem encodeOfDecodeIsWord : Obligations.EncodeOfDecodeIsWord :=
  fun _ _ h => encode_of_decodeWord h

/-- Settles O4: twelve closed words are evaluated. -/
theorem sampleWordsDecode : Obligations.SampleWordsDecode := by
  unfold Obligations.SampleWordsDecode
  decide

end Sys2Proof.Proofs
end

section
/-! PROOFS. What an instruction can change, said once for all 34: the fields it may write and the registers it may write. The
frames and the lists of writers (10_state.md, 20_memory.md section 1) follow from these two. -/

namespace Sys2Proof.Proofs

open Sys2Proof Sys2Proof.Machine

/-! ## The two statements -/

/-- The fields of the state that an instruction may write; `PC` is `PC + 2` afterwards where no value stands. -/
def FieldFrame (s t : State) : Instr → Prop
  | .cls => t = { s with disp := t.disp, dirty := t.dirty, pc := s.pc + 2 }
  | .drw _ _ _ => t = { s with v := t.v, disp := t.disp, dirty := t.dirty, pc := s.pc + 2 }
  | .ret => t = { s with pc := t.pc, sp := t.sp }
  | .call _ => t = { s with pc := t.pc, sp := t.sp, stack := t.stack }
  | .jp _ | .jpV0 _ | .seImm _ _ | .sneImm _ _ | .seReg _ _ | .sneReg _ _ | .skp _ | .sknp _ => t = { s with pc := t.pc }
  | .ldI _ | .addI _ | .ldF _ => t = { s with i := t.i, pc := s.pc + 2 }
  | .rnd _ _ => t = { s with v := t.v, pc := s.pc + 2, draws := t.draws }
  | .ldVxK _ => t = { s with run := t.run }
  | .ldDtVx _ => t = { s with dt := t.dt, pc := s.pc + 2 }
  | .ldStVx _ => t = { s with st := t.st, pc := s.pc + 2 }
  | .ldB _ | .ldMemVx _ => t = { s with mem := t.mem, pc := s.pc + 2 }
  | .ldImm _ _ | .addImm _ _ | .ldReg _ _ | .orReg _ _ | .andReg _ _ | .xorReg _ _ | .addReg _ _ | .subReg _ _ | .shr _ _
  | .subn _ _ | .shl _ _ | .ldVxDt _ | .ldVxMem _ => t = { s with v := t.v, pc := s.pc + 2 }

/-- The registers that an instruction may write: its destination, VF where it sets a flag, or a range. -/
def writtenRegs : Instr → List Reg
  | .ldImm x _ | .addImm x _ | .rnd x _ | .ldReg x _ | .orReg x _ | .andReg x _ | .xorReg x _ | .ldVxDt x => [x]
  | .addReg x _ | .subReg x _ | .shr x _ | .subn x _ | .shl x _ => [x, 0xF]
  | .drw _ _ _ => [0xF]
  | .ldVxMem x => (List.finRange 16).filter (· ≤ x)
  | _ => []

/-! ## Reads of a state that differs in known fields -/

section
variable {s t : State}

theorem memSame_of_eq (hm : t.mem = s.mem) (hp : t.params = s.params) : memSame s t := by
  intro a
  rw [State.memByte, State.memByte, hm, hp]

theorem regsSameExcept_of_eq (hv : t.v = s.v) (ds : List Reg) : regsSameExcept s t ds := by
  intro r _
  rw [State.getV, State.getV, hv]

end

/-- The frame of an instruction that sets a flag and advances. -/
theorem regsSameExcept_setVFlag_advance (s : State) (x : Reg) (b f : Byte) :
    regsSameExcept s (s.setVFlag x b f).advance [x, 0xF] := by
  intro r hr
  simp only [List.mem_cons, List.not_mem_nil, or_false, not_or] at hr
  rw [State.advance_getV, State.setVFlag_getV, if_neg hr.2, if_neg hr.1]

/-! ## Every instruction keeps to them -/

section
variable {i : Instr} {s t : State}

theorem exec_fieldFrame (h : exec i s = .next t) : FieldFrame s t i := by
  cases i
  case ret => obtain ⟨j, -, rfl⟩ := execRet_next h; rfl
  case call => obtain ⟨j, -, rfl⟩ := execCall_next h; rfl
  case drw => obtain ⟨-, rfl⟩ := execDrw_next h; rfl
  case ldB => obtain ⟨-, rfl⟩ := execLdB_next h; rw [FieldFrame, State.writeBytes_eq]; rfl
  case ldMemVx => obtain ⟨-, rfl⟩ := execLdMemVx_next h; rw [FieldFrame, State.writeBytes_eq]; rfl
  case ldVxMem => obtain ⟨-, rfl⟩ := execLdVxMem_next h; rfl
  all_goals
    cases h
    rfl

theorem exec_regsSameExcept (h : exec i s = .next t) : regsSameExcept s t (writtenRegs i) := by
  have hf := exec_fieldFrame h
  cases i
  case ldImm | addImm | rnd | ldReg | orReg | andReg | xorReg | ldVxDt =>
    cases h
    exact regsSameExcept_setV_advance s _ _
  case addReg | subReg | shr | subn | shl =>
    cases h
    exact regsSameExcept_setVFlag_advance s _ _ _
  case drw =>
    obtain ⟨-, rfl⟩ := execDrw_next h
    exact regsSameExcept_setV_advance s 0xF _
  case ldVxMem x =>
    obtain ⟨-, rfl⟩ := execLdVxMem_next h
    intro r hr
    have hrx : ¬ r ≤ x := by simpa [writtenRegs] using hr
    rw [State.advance_getV, State.setVUpTo_getV, if_neg hrx]
  all_goals exact regsSameExcept_of_eq (congrArg State.v hf) _

/-! ## Who writes each field -/

theorem exec_keeps_keys (h : exec i s = .next t) : t.keys = s.keys := by
  have hf := exec_fieldFrame h
  cases i <;> exact (congrArg State.keys hf :)

theorem exec_keeps_params (h : exec i s = .next t) : t.params = s.params := by
  have hf := exec_fieldFrame h
  cases i <;> exact (congrArg State.params hf :)

theorem exec_keeps_schedule (h : exec i s = .next t) : t.schedule = s.schedule := by
  have hf := exec_fieldFrame h
  cases i <;> exact (congrArg State.schedule hf :)

theorem exec_writes_mem (h : exec i s = .next t) (hne : t.mem ≠ s.mem) : ∃ x, i = .ldB x ∨ i = .ldMemVx x := by
  have hf := exec_fieldFrame h
  cases i
  case ldB x => exact ⟨x, .inl rfl⟩
  case ldMemVx x => exact ⟨x, .inr rfl⟩
  all_goals exact absurd (congrArg State.mem hf) hne

/-- Every byte of memory reads the same after an instruction that stores nothing. -/
theorem exec_memSame (h : exec i s = .next t) (hi : ¬ ∃ x, i = .ldB x ∨ i = .ldMemVx x) : memSame s t :=
  memSame_of_eq (not_not.1 fun hne => hi (exec_writes_mem h hne)) (exec_keeps_params h)

theorem exec_writes_display (h : exec i s = .next t) (hne : t.disp ≠ s.disp ∨ t.dirty ≠ s.dirty) :
    i = .cls ∨ ∃ x y n, i = .drw x y n := by
  have hf := exec_fieldFrame h
  cases i
  case cls => exact .inl rfl
  case drw x y n => exact .inr ⟨x, y, n, rfl⟩
  all_goals exact hne.elim (absurd (congrArg State.disp hf :)) (absurd (congrArg State.dirty hf :))

theorem exec_writes_index (h : exec i s = .next t) (hne : t.i ≠ s.i) :
    (∃ nnn, i = .ldI nnn) ∨ ∃ x, i = .addI x ∨ i = .ldF x := by
  have hf := exec_fieldFrame h
  cases i
  case ldI nnn => exact .inl ⟨nnn, rfl⟩
  case addI x => exact .inr ⟨x, .inl rfl⟩
  case ldF x => exact .inr ⟨x, .inr rfl⟩
  all_goals exact absurd (congrArg State.i hf) hne

theorem exec_writes_stack (h : exec i s = .next t) (hne : t.sp ≠ s.sp ∨ t.stack ≠ s.stack) :
    i = .ret ∨ ∃ nnn, i = .call nnn := by
  have hf := exec_fieldFrame h
  cases i
  case ret => exact .inl rfl
  case call nnn => exact .inr ⟨nnn, rfl⟩
  all_goals exact hne.elim (absurd (congrArg State.sp hf :)) (absurd (congrArg State.stack hf :))

theorem exec_writes_run (h : exec i s = .next t) (hne : t.run ≠ s.run) : ∃ x, i = .ldVxK x := by
  have hf := exec_fieldFrame h
  cases i
  case ldVxK x => exact ⟨x, rfl⟩
  all_goals exact absurd (congrArg State.run hf) hne

theorem exec_writes_dt (h : exec i s = .next t) (hne : t.dt ≠ s.dt) : ∃ x, i = .ldDtVx x := by
  have hf := exec_fieldFrame h
  cases i
  case ldDtVx x => exact ⟨x, rfl⟩
  all_goals exact absurd (congrArg State.dt hf) hne

theorem exec_writes_st (h : exec i s = .next t) (hne : t.st ≠ s.st) : ∃ x, i = .ldStVx x := by
  have hf := exec_fieldFrame h
  cases i
  case ldStVx x => exact ⟨x, rfl⟩
  all_goals exact absurd (congrArg State.st hf) hne

theorem exec_writes_draws (h : exec i s = .next t) (hne : t.draws ≠ s.draws) : ∃ x kk, i = .rnd x kk := by
  have hf := exec_fieldFrame h
  cases i
  case rnd x kk => exact ⟨x, kk, rfl⟩
  all_goals exact absurd (congrArg State.draws hf) hne

theorem exec_transfers_control (h : exec i s = .next t) (hne : t.pc ≠ s.pc + 2) :
    i = .ret ∨ (∃ nnn, i = .jp nnn ∨ i = .call nnn ∨ i = .jpV0 nnn) ∨ (∃ x kk, i = .seImm x kk ∨ i = .sneImm x kk) ∨
      (∃ x y, i = .seReg x y ∨ i = .sneReg x y) ∨ ∃ x, i = .skp x ∨ i = .sknp x ∨ i = .ldVxK x := by
  have hf := exec_fieldFrame h
  cases i
  case ret | jp | call | jpV0 | seImm | sneImm | seReg | sneReg | skp | sknp | ldVxK => simp
  all_goals exact absurd (congrArg State.pc hf) hne

theorem exec_writes_registers (h : exec i s = .next t) (hne : t.v ≠ s.v) :
    (∃ x kk, i = .ldImm x kk ∨ i = .addImm x kk ∨ i = .rnd x kk) ∨
    (∃ x y, i = .ldReg x y ∨ i = .orReg x y ∨ i = .andReg x y ∨ i = .xorReg x y) ∨
    (∃ x y, i = .addReg x y ∨ i = .subReg x y ∨ i = .shr x y ∨ i = .subn x y ∨ i = .shl x y) ∨
    (∃ x y n, i = .drw x y n) ∨ ∃ x, i = .ldVxDt x ∨ i = .ldVxMem x := by
  have hf := exec_fieldFrame h
  cases i
  case ldImm | addImm | rnd | ldReg | orReg | andReg | xorReg | addReg | subReg | shr | subn | shl | drw | ldVxDt | ldVxMem =>
    simp
  all_goals exact absurd (congrArg State.v hf) hne

end

/-! ## The obligations about writers and frames -/

/-- Settles O59: the lists of writers, field by field; `Fx0A` leaves `PC` where it is. -/
theorem writersOfEachPieceOfState : Obligations.WritersOfEachPieceOfState := by
  intro i s t h
  refine ⟨exec_writes_registers h, ?_, exec_transfers_control h, exec_writes_mem h, exec_writes_display h,
    exec_writes_index h, exec_writes_stack h, exec_writes_run h, exec_writes_dt h, exec_writes_st h, exec_writes_draws h,
    exec_keeps_keys h, exec_keeps_params h, exec_keeps_schedule h⟩
  rintro hne x rfl
  exact hne (congrArg State.pc (exec_fieldFrame h) :)

/-- Settles O60: VF is among the registers the instruction may write; as its destination it is the instruction's own field. -/
theorem writersOfTheFlagRegister : Obligations.WritersOfTheFlagRegister := by
  intro i s t h hne
  have hmem : 0xF ∈ writtenRegs i := by
    by_contra hnot
    exact hne (exec_regsSameExcept h 0xF hnot)
  cases i
  case addReg | subReg | shr | subn | shl | drw => simp
  case ldImm | addImm | rnd | ldReg | orReg | andReg | xorReg | ldVxDt =>
    obtain rfl := List.mem_singleton.1 hmem
    simp
  case ldVxMem x =>
    have hx : 0xF ≤ x := by simpa [writtenRegs] using hmem
    obtain rfl : x = 0xF := Fin.le_antisymm (Fin.le_last x) hx
    simp
  all_goals cases hmem

/-- Settles O16. -/
theorem controlTransferFrame : Obligations.ControlTransferFrame := by
  intro i s t h
  have hf := exec_fieldFrame h
  have hr := exec_regsSameExcept h
  have hm := exec_memSame h
  refine ⟨?_, ?_, ?_⟩
  · rintro (⟨nnn, rfl | rfl⟩ | ⟨x, kk, rfl | rfl⟩ | ⟨x, y, rfl | rfl⟩ | ⟨x, rfl | rfl⟩) <;>
      exact ⟨hf, hr, hm (by simp)⟩
  · rintro rfl
    exact ⟨hf, hr, hm (by simp)⟩
  · rintro nnn rfl
    exact ⟨hf, hr, hm (by simp)⟩

/-- Settles O29. -/
theorem nonStoringInstructionFrame : Obligations.NonStoringInstructionFrame := by
  intro i nnn x y kk s t h
  have hf := exec_fieldFrame h
  have hr := exec_regsSameExcept h
  have hm := exec_memSame h
  simp only [List.mem_cons, List.not_mem_nil, or_false]
  refine ⟨?_, ?_, ?_, ?_, ?_⟩
  · rintro (rfl | rfl | rfl | rfl | rfl | rfl | rfl) <;>
      exact ⟨hr, hm (by simp), hf⟩
  · rintro (rfl | rfl | rfl | rfl | rfl) <;>
      exact ⟨hr, hm (by simp), hf⟩
  · rintro (rfl | rfl | rfl) <;>
      exact ⟨hr, hm (by simp), hf⟩
  · rintro rfl
    exact ⟨hr, hm (by simp), hf⟩
  · rintro rfl
    exact ⟨hr, hm (by simp), hf⟩

/-- Settles O39. -/
theorem displayInstructionFrame : Obligations.DisplayInstructionFrame := by
  intro x y n s t
  exact ⟨fun h => ⟨exec_regsSameExcept h, exec_memSame h (by simp), exec_fieldFrame h⟩,
    fun h => ⟨exec_regsSameExcept h, exec_memSame h (by simp), exec_fieldFrame h⟩⟩

end Sys2Proof.Proofs
end

section
/-! PROOFS. Faults (60_exceptions.md): which instructions fault, that none is refused, that a fault stays. -/

namespace Sys2Proof.Proofs

open Sys2Proof Sys2Proof.Machine

/-! ## The shapes of an instruction that can fault -/

section
variable {s t : State} {f : Fault}

theorem execRet_next_or_fault (s : State) :
    s.sp.val = 0 ∧ execRet s = .fault .stackUnderflow ∨ s.sp.val ≠ 0 ∧ ∃ t, execRet s = .next t := by
  rcases Nat.eq_zero_or_pos s.sp.val with h0 | hpos
  · exact .inl ⟨h0, execRet_underflow h0⟩
  · have hlt : s.sp.val - 1 < 16 := by omega
    exact .inr ⟨hpos.ne', _, execRet_ok ⟨s.sp.val - 1, hlt⟩ (Nat.sub_add_cancel hpos).symm⟩

theorem execCall_overflow (nnn : Addr12) (h : s.sp.val = 16) : execCall nnn s = .fault .stackOverflow := by
  simp only [execCall, s.push_overflow _ h, raiseFault]

theorem execCall_next_or_fault (nnn : Addr12) (s : State) :
    s.sp.val = 16 ∧ execCall nnn s = .fault .stackOverflow ∨ s.sp.val ≠ 16 ∧ ∃ t, execCall nnn s = .next t := by
  rcases Nat.lt_or_ge s.sp.val 16 with hlt | hge
  · exact .inr ⟨hlt.ne, _, execCall_ok nnn ⟨s.sp.val, hlt⟩ rfl⟩
  · have h16 : s.sp.val = 16 := by omega
    exact .inl ⟨h16, execCall_overflow nnn h16⟩

theorem execRet_eq_fault_iff : execRet s = .fault f ↔ s.sp.val = 0 ∧ f = .stackUnderflow := by
  rcases execRet_next_or_fault s with ⟨h, ho⟩ | ⟨h, t, ho⟩ <;> simp [h, ho, eq_comm]

theorem execCall_eq_fault_iff {nnn : Addr12} : execCall nnn s = .fault f ↔ s.sp.val = 16 ∧ f = .stackOverflow := by
  rcases execCall_next_or_fault nnn s with ⟨h, ho⟩ | ⟨h, t, ho⟩ <;> simp [h, ho, eq_comm]

/-- An access through `I` that is checked before it is made (R55, R96). -/
theorem bounded_eq_fault_iff {b count : Nat} :
    (if pastEnd b count then raiseFault (.addressOutOfRange 4096) else .next t) = .fault f ↔
      4096 < b + count ∧ f = .addressOutOfRange 4096 := by
  rw [← pastEnd_eq_true_iff]
  cases pastEnd b count <;> simp [raiseFault, eq_comm]

theorem bounded_ne_refused {b count : Nat} {g : Fault} {r : Refusal} :
    (if pastEnd b count then raiseFault g else .next t) ≠ .refused r := by
  cases pastEnd b count <;> simp [raiseFault]

theorem execDrw_eq_fault_iff {x y : Reg} {n : Nibble} :
    execDrw x y n s = .fault f ↔ 4096 < s.baseAddr + n.toNat ∧ f = .addressOutOfRange 4096 :=
  bounded_eq_fault_iff

theorem execLdB_eq_fault_iff {x : Reg} :
    execLdB x s = .fault f ↔ 4096 < s.baseAddr + 3 ∧ f = .addressOutOfRange 4096 :=
  bounded_eq_fault_iff

theorem execLdMemVx_eq_fault_iff {x : Reg} :
    execLdMemVx x s = .fault f ↔ 4096 < s.baseAddr + (x.val + 1) ∧ f = .addressOutOfRange 4096 :=
  bounded_eq_fault_iff

theorem execLdVxMem_eq_fault_iff {x : Reg} :
    execLdVxMem x s = .fault f ↔ 4096 < s.baseAddr + (x.val + 1) ∧ f = .addressOutOfRange 4096 :=
  bounded_eq_fault_iff

end

/-- Settles O57: each of the six by its own check; every other instruction goes on in every state. -/
theorem onlySixInstructionsFault : Obligations.OnlySixInstructionsFault := by
  intro i s f
  rw [← State.baseAddr_eq]
  cases i
  case ret => exact execRet_eq_fault_iff.trans (by simp)
  case call => exact execCall_eq_fault_iff.trans (by simp)
  case drw x y n => exact execDrw_eq_fault_iff.trans (by simp)
  case ldB x =>
    have hb : 4096 < s.baseAddr + 3 ↔ s.baseAddr + 2 > 4095 := by omega
    exact execLdB_eq_fault_iff.trans (by simp [hb])
  case ldMemVx x =>
    have hb : 4096 < s.baseAddr + (x.val + 1) ↔ s.baseAddr + x.val > 4095 := by omega
    exact execLdMemVx_eq_fault_iff.trans (by simp [hb])
  case ldVxMem x =>
    have hb : 4096 < s.baseAddr + (x.val + 1) ↔ s.baseAddr + x.val > 4095 := by omega
    exact execLdVxMem_eq_fault_iff.trans (by simp [hb])
  all_goals exact iff_of_false nofun (by simp)

/-! ## Nothing is refused -/

theorem exec_ne_refused (i : Instr) (s : State) (r : Refusal) : exec i s ≠ .refused r := by
  cases i
  case ret => rcases execRet_next_or_fault s with ⟨-, ho⟩ | ⟨-, t, ho⟩ <;> simp [exec, ho]
  case call nnn => rcases execCall_next_or_fault nnn s with ⟨-, ho⟩ | ⟨-, t, ho⟩ <;> simp [exec, ho]
  case drw | ldB | ldMemVx | ldVxMem => exact bounded_ne_refused
  all_goals nofun

theorem stepTransaction_ne_refused (s : State) (r : Refusal) : stepTransaction s ≠ .refused r := by
  unfold stepTransaction
  split
  · nofun
  · split
    · nofun
    · exact exec_ne_refused _ s r

theorem hostMove_ne_refused (m : HostMove) (s : State) (r : Refusal) : hostMove m s ≠ .refused r := by
  cases m with
  | load bytes =>
    rcases Nat.lt_or_ge 3584 bytes.length with hl | hl
    · simp [hostMove, s.load_error bytes hl, raiseFault]
    · simp [hostMove, s.load_ok bytes hl]
  | _ => nofun

theorem transact_ne_refused (a : Transaction) (s : State) (r : Refusal) : transact a s ≠ .refused r := by
  cases a with
  | step => exact stepTransaction_ne_refused s r
  | host m => exact hostMove_ne_refused m s r

/-- Settles O58: a step is a `step` transaction or a scheduled one, and none of them is refused. -/
theorem nothingIsRefused : Obligations.NothingIsRefused := by
  refine ⟨exec_ne_refused, fun s r => ?_⟩
  cases hs : s.schedule with
  | nil => rw [step_of_no_schedule hs]; exact stepTransaction_ne_refused s r
  | cons a ts => rw [step_of_schedule hs]; exact transact_ne_refused a _ r

/-! ## A fault stays -/

section
variable {s t : State} {f : Fault}

/-- Whether an instruction faults is settled by `SP` and `I` (R165). -/
theorem exec_fault_of_same (i : Instr) (hsp : t.sp = s.sp) (hi : t.i = s.i) (h : exec i s = .fault f) :
    exec i t = .fault f := by
  rw [onlySixInstructionsFault] at h ⊢
  rwa [hsp, hi]

/-- Whether a `step` transaction faults is settled by the run state, the fetched instruction, `SP` and `I`. -/
theorem stepTransaction_fault_of_same (hrun : t.run = s.run) (hfetch : t.fetchInstr = s.fetchInstr) (hsp : t.sp = s.sp)
    (hi : t.i = s.i) (h : stepTransaction s = .fault f) : stepTransaction t = .fault f := by
  unfold stepTransaction at h ⊢
  rw [hrun, hfetch]
  split at h
  · cases h
  · split at h
    · exact h
    · exact exec_fault_of_same _ hsp hi h

end

/-- Settles O56: the latch, the timers, `DIRTY` and the draw counter are not read by the fetch, and settle no fault. -/
theorem faultPersists : Obligations.FaultPersists := by
  intro s f h
  refine ⟨?_, fun k => ?_, ?_, fun n => ?_⟩ <;> exact stepTransaction_fault_of_same (s := s) rfl rfl rfl rfl h

end Sys2Proof.Proofs
end

section
/-! PROOFS. The invariant (10_state.md section 5, log 5): it holds at reset and every step keeps it. -/

namespace Sys2Proof.Proofs

open Sys2Proof Sys2Proof.Machine

/-! ## The advance and the skips from an address that can be fetched -/

theorem add_two_toNat_le {w : Word} (h : w.toNat ≤ 4094) : (w + 2).toNat ≤ 4096 := by
  bv_omega

section
variable {s : State}

theorem skipIf_pc_le (c : Bool) (h : s.pc.toNat ≤ 4094) : (s.skipIf c).pc.toNat ≤ 4098 := by
  cases c
  · exact (add_two_toNat_le h).trans (by decide)
  · rw [State.skipIf_pc, if_pos rfl]
    bv_omega

end

/-! ## Instructions -/

section
variable {i : Instr} {s t : State}

theorem writeBytes_memCanonical {a : Nat} {bs : List Byte} (ha : a + bs.length ≤ 4096) (hm : s.memCanonical) :
    (s.writeBytes a bs).memCanonical := by
  rw [State.memCanonical, State.writeBytes_params]
  exact s.writeBytes_wf a bs ha hm

theorem exec_keeps_memCanonical (h : exec i s = .next t) (hm : s.memCanonical) : t.memCanonical := by
  by_cases heq : t.mem = s.mem
  · rwa [State.memCanonical, heq, exec_keeps_params h]
  · obtain ⟨x, rfl | rfl⟩ := exec_writes_mem h heq
    · obtain ⟨hb, rfl⟩ := execLdB_next h
      exact writeBytes_memCanonical hb hm
    · obtain ⟨hb, rfl⟩ := execLdMemVx_next h
      rw [← s.vUpTo_length x] at hb
      exact writeBytes_memCanonical hb hm

theorem exec_keeps_stackBounded (h : exec i s = .next t) (hpc : s.pc.toNat ≤ 4094) (hs : s.stackBounded) :
    t.stackBounded := by
  by_cases heq : t.stack = s.stack
  · rwa [State.stackBounded, heq]
  · rcases exec_writes_stack h (.inr heq) with rfl | ⟨nnn, rfl⟩
    · exact absurd (congrArg State.stack (exec_fieldFrame h) :) heq
    · obtain ⟨j, -, rfl⟩ := execCall_next h
      intro k
      simp only [Fin.getElem_fin, Vector.getElem_set]
      split
      · exact add_two_toNat_le hpc
      · exact hs k

/-- The largest target is that of `Bnnn`, 0xFFF + 0xFF (R19). -/
theorem exec_pc_le (h : exec i s = .next t) (hpc : s.pc.toNat ≤ 4094) (hs : s.stackBounded) : t.pc.toNat ≤ 0x10FE := by
  cases i
  case ret =>
    obtain ⟨j, -, rfl⟩ := execRet_next h
    exact (hs j).trans (by decide)
  case jp nnn =>
    cases h
    rw [State.setPc_pc, zext16_toNat]
    omega
  case call nnn =>
    obtain ⟨j, -, rfl⟩ := execCall_next h
    rw [zext16_toNat]
    omega
  case jpV0 nnn =>
    cases h
    rw [State.setPc_pc, State.jumpSum_toNat]
    omega
  case seImm | sneImm | seReg | sneReg | skp | sknp =>
    cases h
    exact (skipIf_pc_le _ hpc).trans (by decide)
  case ldVxK =>
    cases h
    exact hpc.trans (by decide)
  all_goals
    have hadvance : t.pc = s.pc + 2 := (congrArg State.pc (exec_fieldFrame h) :)
    exact hadvance ▸ (add_two_toNat_le hpc).trans (by decide)

/-- A key wait begins at the address of the `Fx0A`, which was fetched. -/
theorem exec_keeps_pcBounded (h : exec i s = .next t) (hrun : s.run = .running) (hpc : s.pc.toNat ≤ 4094)
    (hs : s.stackBounded) : t.pcBounded := by
  refine ⟨exec_pc_le h hpc hs, fun hwait => ?_⟩
  obtain ⟨x, rfl⟩ := exec_writes_run h (hrun ▸ hwait)
  cases h
  exact hpc

end

/-! ## The other transactions -/

section
variable {s t : State}

theorem resetWith_inv (p : Params) : (State.resetWith p).Inv := by
  have hpc : (0x200 : Word).toNat ≤ 0x10FE := by decide
  refine ⟨⟨List.Pairwise.nil, by simp [State.resetWith]⟩, ⟨hpc, fun hne => absurd rfl hne⟩, fun j => ?_⟩
  simp [State.resetWith]

theorem keyWaitPoll_inv {r : Reg} (hrun : s.run = .waitingForKey r) (h : s.Inv) : (s.keyWaitPoll r).Inv := by
  obtain ⟨hm, ⟨-, hwait⟩, hs⟩ := h
  have hpc : s.pc.toNat ≤ 4094 := hwait (by simp [hrun])
  rcases s.keyWaitPoll_cases r with heq | ⟨k, heq⟩ <;> rw [heq]
  · exact ⟨hm, ⟨hpc.trans (by decide), hwait⟩, hs⟩
  · exact ⟨hm, ⟨(add_two_toNat_le hpc).trans (by decide), fun hne => absurd rfl hne⟩, hs⟩

theorem load_inv (bytes : List Byte) (hl : bytes.length ≤ 3584) (h : s.Inv) : (s.writeBytes 0x200 bytes).Inv := by
  obtain ⟨hm, hpc, hs⟩ := h
  exact ⟨writeBytes_memCanonical (by omega) hm, by simpa [State.pcBounded] using hpc,
    by simpa [State.stackBounded] using hs⟩

theorem hostMove_inv {m : HostMove} (h : hostMove m s = .next t) (hi : s.Inv) : t.Inv := by
  rcases hostMove_next h with ⟨-, rfl⟩ | ⟨bytes, -, hl, rfl⟩ | ⟨k, -, rfl⟩ | ⟨-, rfl⟩ | ⟨-, rfl⟩
  · exact resetWith_inv s.params
  · exact load_inv bytes hl hi
  all_goals exact hi

theorem stepTransaction_inv (h : stepTransaction s = .next t) (hi : s.Inv) : t.Inv := by
  rcases stepTransaction_next h with ⟨r, hrun, rfl⟩ | ⟨hrun, hpc, i, hex⟩
  · exact keyWaitPoll_inv hrun hi
  · obtain ⟨hm, -, hs⟩ := hi
    exact ⟨exec_keeps_memCanonical hex hm, exec_keeps_pcBounded hex hrun hpc hs, exec_keeps_stackBounded hex hpc hs⟩

theorem transact_inv {a : Transaction} (h : transact a s = .next t) (hi : s.Inv) : t.Inv := by
  cases a with
  | step => exact stepTransaction_inv h hi
  | host m => exact hostMove_inv h hi

end

/-- Settles O54: the invariant does not speak of the schedule, and every transaction keeps it. -/
theorem stepKeepsInvariant : Obligations.StepKeepsInvariant := by
  intro s t hi h
  cases hs : s.schedule with
  | nil => exact stepTransaction_inv (step_of_no_schedule hs ▸ h) hi
  | cons a ts =>
    have hi' : (s.setSchedule ts).Inv := hi
    exact transact_inv (step_of_schedule hs ▸ h) hi'

/-- Settles O55. -/
theorem resetMeetsInvariant : Obligations.ResetMeetsInvariant :=
  resetWith_inv

end Sys2Proof.Proofs
end

section
/-! PROOFS. The step (40_step_cycle.md) and the key wait (45_timer_key_random.md). -/

namespace Sys2Proof.Proofs

open Sys2Proof Sys2Proof.Machine

/-! ## Fetch, decode, execute -/

theorem legalWord_eq_isSome_decodeWord (op : Word) : legalWord op = (decodeWord op).isSome := by
  rw [Bool.eq_iff_iff, isSome_decodeWord_iff, legalWord, List.any_eq_true]

/-- Settles O7. -/
theorem fetchIsBigEndianAndBounded : Obligations.FetchIsBigEndianAndBounded :=
  fun _ => ⟨State.fetch_ok, State.fetch_error_4095, State.fetch_error⟩

/-- The four ways of a `step` transaction (R90, R91, R95). -/
theorem stepTransaction_ways (s : State) :
    (∀ r, s.run = .waitingForKey r → stepTransaction s = .next (s.keyWaitPoll r)) ∧
    (s.run = .running →
      (∀ f, s.fetch = .error f → stepTransaction s = .fault f) ∧
      (∀ op, s.fetch = .ok op → decodeWord op = none → stepTransaction s = .fault (.illegalInstruction op)) ∧
      (∀ op i, s.fetch = .ok op → decodeWord op = some i → stepTransaction s = exec i s)) :=
  ⟨fun _ hr => stepTransaction_waiting hr, fun hr => ⟨fun _ => stepTransaction_fetch_error hr,
    fun _ => stepTransaction_illegal hr, fun _ _ => stepTransaction_exec hr⟩⟩

/-- Settles O5: a scheduled `step` is the `step` transaction from the state with the rest of the schedule, where the run state
and the fetch are the same. -/
theorem stepRunsDecodedInstruction : Obligations.StepRunsDecodedInstruction := by
  refine ⟨fun s hs => ?_, fun s ts hs => ?_, fun s m ts hs => step_of_schedule hs⟩
  · rw [step_of_no_schedule hs]
    exact stepTransaction_ways s
  · rw [step_of_schedule hs]
    exact stepTransaction_ways (s.setSchedule ts)

/-- Settles O8: a word that no row matches does not decode. -/
theorem unmatchedWordFaults : Obligations.UnmatchedWordFaults := by
  rintro s op hs hrun hpc rfl hill
  rw [legalWord_eq_isSome_decodeWord, Option.isSome_eq_false_iff, Option.isNone_iff_eq_none] at hill
  rw [step_of_no_schedule hs]
  exact stepTransaction_illegal hrun (State.fetch_ok hpc) hill

/-! ## The key wait -/

section
variable {s : State} {r : Reg}

theorem keyWaitPoll_of_pressed {k : Fin 16} (hk : s.keys[k] = true) (hlow : ∀ j : Fin 16, j < k → s.keys[j] = false) :
    s.keyWaitPoll r = ((s.setV r (keyCode k)).setRun .running).advance := by
  rw [State.keyWaitPoll, lowestKey_eq_some s.keys k hk hlow]

theorem keyWaitPoll_of_released (h : ∀ k : Fin 16, s.keys[k] = false) : s.keyWaitPoll r = s := by
  rw [State.keyWaitPoll, lowestKey_eq_none s.keys h]

theorem step_waiting (hs : s.schedule = []) (hr : s.run = .waitingForKey r) : step s = .next (s.keyWaitPoll r) := by
  rw [step_of_no_schedule hs, stepTransaction_waiting hr]

end

/-- Settles O44. -/
theorem keyWaitPollTakesLowestKey : Obligations.KeyWaitPollTakesLowestKey := by
  intro s r hs hr
  rw [step_waiting hs hr]
  refine ⟨fun k hk hlow => ?_, fun h => by rw [keyWaitPoll_of_released h]⟩
  rw [keyWaitPoll_of_pressed hk hlow]
  refine ⟨_, rfl, ?_, rfl, rfl, regsSameExcept_setV_advance s r (keyCode k), rfl⟩
  rw [State.advance_getV, State.setRun_getV, State.setV_getV_self, keyCode_toNat]

/-- Settles O43: the first step sets the run state alone, the second is a poll. -/
theorem waitForKeyTakesTwoSteps : Obligations.WaitForKeyTakesTwoSteps := by
  intro x s
  refine ⟨s.setRun (.waitingForKey x), rfl, rfl, fun hs k hk hlow => ?_⟩
  obtain ⟨u, hstep, hv, hrun, hpc, -⟩ :=
    (keyWaitPollTakesLowestKey (s.setRun (.waitingForKey x)) x hs rfl).1 k hk hlow
  exact ⟨u, hstep, hv, hpc, hrun⟩

/-- Settles O45: a poll reads the latch alone; it writes one register, the run state and `PC`, or nothing. -/
theorem keyWaitIgnoresMemory : Obligations.KeyWaitIgnoresMemory := by
  intro s r m i p k dt st d b n hr
  refine ⟨s.keyWaitPoll r, stepTransaction_waiting hr, Eq.trans (stepTransaction_waiting (r := r) (by exact hr)) ?_⟩
  unfold State.keyWaitPoll
  cases lowestKey s.keys <;> rfl

end Sys2Proof.Proofs
end

section
/-! PROOFS. The driver (00_scope.md section 5, 70_reset_and_hazards.md): timers, loads, reset, and sequences of
transactions. -/

namespace Sys2Proof.Proofs

open Sys2Proof Sys2Proof.Machine

/-! ## Timers and `DIRTY` -/

/-- Settles O47: `n + 1` ticks are a tick and then `n` ticks. -/
theorem timersReachZeroAndStay : Obligations.TimersReachZeroAndStay := by
  intro n
  simp only [State.soundActive_iff]
  induction n with
  | zero => exact fun s => ⟨rfl, rfl, Iff.rfl, rfl⟩
  | succ n ih =>
    intro s
    obtain ⟨hdt, hst, -, hframe⟩ := ih s.tick
    have hdt1 : s.tick.dt.toNat = s.dt.toNat - 1 := countDown_toNat s.dt
    have hst1 : s.tick.st.toNat = s.st.toNat - 1 := countDown_toNat s.st
    simp only [ticks]
    exact ⟨by omega, by omega, by omega, hframe⟩

/-- Settles O49. -/
theorem clearDirtyClearsFlag : Obligations.ClearDirtyClearsFlag :=
  fun s => ⟨s.clearDirty, rfl, rfl, rfl⟩

/-! ## Loads -/

section
variable {s : State} {bytes : List Byte}

theorem hostMove_load_fault (h : 3584 < bytes.length) :
    hostMove (.load bytes) s = .fault (.programTooLarge bytes.length) := by
  simp only [hostMove, s.load_error bytes h, raiseFault]

theorem hostMove_load_next (h : bytes.length ≤ 3584) : hostMove (.load bytes) s = .next (s.writeBytes 0x200 bytes) := by
  simp only [hostMove, s.load_ok bytes h]

end

/-- Settles O50. -/
theorem loadCopiesProgram : Obligations.LoadCopiesProgram := by
  intro bytes s
  refine ⟨fun h => ?_, fun h => ⟨_, hostMove_load_next h, fun k hk => ?_, ?_, s.writeBytes_eq 0x200 bytes, ?_⟩⟩
  · rw [hostMove_load_fault h]
    exact ⟨rfl, rfl⟩
  · rw [s.writeBytes_memByte_at, List.getD_eq_getElem _ _ hk]
  · exact s.writeBytes_memByte_outside 0x200 bytes
  · rintro rfl
    rfl

/-- Settles O51: each load is a load of its own, and the second lies within the first. -/
theorem secondLoadOverwritesItsBytes : Obligations.SecondLoadOverwritesItsBytes := by
  intro first second s hfirst hle
  obtain ⟨t, hload1, hin1, hout1, hframe1, -⟩ := (loadCopiesProgram first s).2 hfirst
  obtain ⟨u, hload2, hin2, hout2, hframe2, -⟩ := (loadCopiesProgram second t).2 (hle.trans hfirst)
  refine ⟨t, u, hload1, hload2, ?_, fun a ha => ?_, fun k => ?_⟩
  · rw [hframe2, hframe1]
  · exact (hout2 a (by omega)).trans (hout1 a ha)
  · split
    case isTrue hk => exact hin2 k hk
    case isFalse hk2 =>
      rw [hout2 (0x200 + k) (by omega)]
      split
      case isTrue hk => exact hin1 k hk
      case isFalse hk1 => exact hout1 (0x200 + k) (by omega)

/-! ## What no transaction changes -/

section
variable {a : Transaction} {s t : State}

theorem stepTransaction_keeps_params (h : stepTransaction s = .next t) : t.params = s.params := by
  rcases stepTransaction_next h with ⟨r, -, rfl⟩ | ⟨-, -, i, hex⟩
  · rcases s.keyWaitPoll_cases r with heq | ⟨k, heq⟩ <;> rw [heq]
    rfl
  · exact exec_keeps_params hex

theorem hostMove_keeps_params {m : HostMove} (h : hostMove m s = .next t) : t.params = s.params := by
  rcases hostMove_next h with ⟨-, rfl⟩ | ⟨bytes, -, -, rfl⟩ | ⟨k, -, rfl⟩ | ⟨-, rfl⟩ | ⟨-, rfl⟩
  case inr.inl => exact s.writeBytes_params 0x200 bytes
  all_goals rfl

theorem transact_keeps_params (h : transact a s = .next t) : t.params = s.params := by
  cases a with
  | step => exact stepTransaction_keeps_params h
  | host m => exact hostMove_keeps_params h

/-- Replacing the schedule by itself changes nothing, and a transaction leaves a replaced schedule as it is. -/
theorem transact_keeps_schedule (h : transact a s = .next t) : t.schedule = s.schedule := by
  have hself : transact a s = outcomeSetSchedule s.schedule (transact a s) := transact_setSchedule a s s.schedule
  rw [h] at hself
  exact (congrArg State.schedule (Host.Outcome.next.inj hself) :)

theorem transact_next_of_no_fault (h : faultOf (transact a s) = none) : ∃ t, transact a s = .next t := by
  cases ho : transact a s with
  | next t => exact ⟨t, rfl⟩
  | fault f => rw [ho] at h; cases h
  | refused r => exact absurd ho (transact_ne_refused a s r)

end

/-! ## Sequences of transactions -/

/-- What every transaction that goes on keeps is kept by every sequence, faults included (R96). -/
theorem runTransactions_keeps {α : Type} {g : State → α} (hg : ∀ a s t, transact a s = .next t → g t = g s)
    (ts : List Transaction) (s : State) : g (runTransactions ts s).1 = g s := by
  induction ts generalizing s with
  | nil => rfl
  | cons a ts ih =>
    refine (ih (stateAfter s (transact a s))).trans ?_
    cases ho : transact a s with
    | next t => exact hg a s t ho
    | fault f => rfl
    | refused r => rfl

theorem runTransactions_keeps_params (ts : List Transaction) (s : State) :
    (runTransactions ts s).1.params = s.params :=
  runTransactions_keeps (fun _ _ _ => transact_keeps_params) ts s

theorem runTransactions_keeps_schedule (ts : List Transaction) (s : State) :
    (runTransactions ts s).1.schedule = s.schedule :=
  runTransactions_keeps (fun _ _ _ => transact_keeps_schedule) ts s

theorem runTransactions_append (ts us : List Transaction) (s : State) :
    (runTransactions (ts ++ us) s).1 = (runTransactions us (runTransactions ts s).1).1 := by
  induction ts generalizing s with
  | nil => rfl
  | cons a ts ih => exact ih (stateAfter s (transact a s))

/-- The driver's transactions go on unless a `load` is too long. -/
theorem runTransactions_host_no_fault (ms : List HostMove) (s : State)
    (h : ∀ bytes, .load bytes ∈ ms → bytes.length ≤ 3584) :
    ∀ a ∈ (runTransactions (ms.map .host) s).2, a = none := by
  induction ms generalizing s with
  | nil => nofun
  | cons m ms ih =>
    have hm : faultOf (hostMove m s) = none := by
      cases m with
      | load bytes => rw [hostMove_load_next (h bytes List.mem_cons_self)]; rfl
      | _ => rfl
    exact List.forall_mem_cons.2 ⟨hm, ih _ fun bytes hb => h bytes (List.mem_cons_of_mem m hb)⟩

/-! ## Runs of the machine perform its schedule -/

section
variable {s t : State} {m : Nat}

theorem run_succ_of_next (h : step s = .next t) (k : Nat) : Sys2Proof.core.run (k + 1) s = Sys2Proof.core.run k t := by
  simp only [Host.Core.run, core, h]

theorem run_add_of_next (h : Sys2Proof.core.run m s = .next t) (k : Nat) :
    Sys2Proof.core.run (m + k) s = Sys2Proof.core.run k t := by
  induction m generalizing s with
  | zero =>
    cases h
    rw [Nat.zero_add]
  | succ m ih =>
    rw [Nat.succ_add]
    simp only [Host.Core.run] at h ⊢
    split at h
    · exact ih h
    all_goals cases h

theorem step_scheduled (a : Transaction) (ts : List Transaction) (s : State) :
    step (s.setSchedule (a :: ts)) = outcomeSetSchedule ts (transact a s) :=
  (step_of_schedule rfl).trans (transact_setSchedule a s ts)

/-- A run as long as a sequence that meets no fault performs it, and leaves the rest of the schedule. -/
theorem run_schedule (ts rest : List Transaction) (s : State) (h : ∀ a ∈ (runTransactions ts s).2, a = none) :
    Sys2Proof.core.run ts.length (s.setSchedule (ts ++ rest)) = .next ((runTransactions ts s).1.setSchedule rest) := by
  induction ts generalizing s with
  | nil => rfl
  | cons a ts ih =>
    obtain ⟨ha, hts⟩ := List.forall_mem_cons.1 h
    obtain ⟨t, ht⟩ := transact_next_of_no_fault ha
    have hstep : step (s.setSchedule (a :: ts ++ rest)) = .next (t.setSchedule (ts ++ rest)) :=
      (step_scheduled a (ts ++ rest) s).trans (congrArg _ ht)
    rw [ht] at hts
    rw [List.length_cons, run_succ_of_next hstep, ih t hts]
    simp only [runTransactions, ht, stateAfter]

end

/-- Settles O6: the schedule is performed in order up to the first fault; the driver's own transactions meet none, and leave
the empty schedule empty. -/
theorem hostMovesRunInOrder : Obligations.HostMovesRunInOrder := by
  refine ⟨fun ms s hs hfit => ?_, run_schedule, fun ts rest a f s hok hf => ?_⟩
  · have hrun := run_schedule (ms.map .host) [] s (runTransactions_host_no_fault ms s hfit)
    rw [List.append_nil, List.length_map] at hrun
    refine hrun.trans (congrArg Host.Outcome.next ?_)
    rw [← hs, ← runTransactions_keeps_schedule (ms.map .host) s]
    rfl
  · refine (run_add_of_next (run_schedule ts (a :: rest) s hok) 1).trans ?_
    have hstep : step ((runTransactions ts s).1.setSchedule (a :: rest)) = .fault f :=
      (step_scheduled a rest _).trans (congrArg _ hf)
    simp only [Host.Core.run, core, hstep]

/-! ## Reset -/

/-- Settles O53: a reset reads the parameters and the schedule of the state it meets, and no transaction changes them. -/
theorem resetErasesEveryHistory : Obligations.ResetErasesEveryHistory := by
  intro ts s
  refine ⟨(runTransactions ts s).1.draws, ?_⟩
  rw [runTransactions_append, ← runTransactions_keeps_params ts s, ← runTransactions_keeps_schedule ts s]
  rfl

/-- Settles O52: the font stands at `FONT_BASE` and nothing else is listed or set. -/
theorem resetStateValues : Obligations.ResetStateValues := by
  refine ⟨rfl, rfl, rfl, rfl, fun p => ⟨fun r => ?_, rfl, rfl, rfl, fun j => ?_, rfl, rfl, rfl,
    fun k _ => background_font p k, background_elsewhere p, fun r c => ?_, rfl, fun k => ?_, rfl⟩⟩
  · simp [State.getV, State.resetWith]
  · simp [State.resetWith]
  · exact pixel_clearDisplay r c
  · simp [State.resetWith]

end Sys2Proof.Proofs
end

section
/-! PROOFS. The call, and a return after it (41_flow.md); the key skips (45_timer_key_random.md). -/

namespace Sys2Proof.Proofs

open Sys2Proof Sys2Proof.Machine

/-- Settles O12: the two answers of a push, on a full stack and into the slot at `SP`. -/
theorem callPushesReturnAddress : Obligations.CallPushesReturnAddress := by
  intro nnn s
  refine ⟨execCall_overflow nnn, fun j h =>
    ⟨_, execCall_ok nnn j h, rfl, j.val_succ, zext16_toNat nnn, Vector.getElem_set_self _, fun k hk => ?_⟩⟩
  exact Vector.getElem_set_ne j.isLt k.isLt fun hjk => hk (Fin.ext hjk.symm)

/-- Settles O13: the return pops the slot that the call has just written. -/
theorem callThenReturnResumes : Obligations.CallThenReturnResumes := by
  intro nnn s j h
  obtain ⟨t, hcall, hframe1, hsp1, -, hslot, hother⟩ := (callPushesReturnAddress nnn s).2 j h
  obtain ⟨u, hret, hframe2, hsp2, hpc, -⟩ := (returnPopsAddress t).2.2 j hsp1
  have hdepth : u.sp = s.sp := Fin.ext (hsp2.trans h.symm)
  have hstack : u.stack = t.stack := (congrArg State.stack hframe2 :)
  rw [← hstack] at hslot hother
  refine ⟨t, u, hcall, hret, hpc.trans (hstack ▸ hslot), ?_, hslot, hother⟩
  calc u = { t with sp := s.sp, pc := u.pc } := hdepth ▸ hframe2
    _ = { s with pc := u.pc, stack := u.stack } := by rw [hstack, hframe1]

/-- Settles O41: the two skips test one latch bit, with opposite senses. -/
theorem keySkips : Obligations.KeySkips := by
  intro x s k hk
  obtain rfl : s.keyNumber x = k := Fin.ext ((s.keyNumber_val x).trans hk.symm)
  refine ⟨⟨_, rfl, rfl, rfl⟩, ⟨_, rfl, ?_, rfl⟩⟩
  simp only [State.skipIf_pc, Bool.not_eq_true']

end Sys2Proof.Proofs
end

section
/-! PROOFS. The ALU (42_alu.md) and the random byte (45_timer_key_random.md): results, flags, the order of the two writes. -/

namespace Sys2Proof.Proofs

open Sys2Proof Sys2Proof.Machine

/-! ## A result, and then a flag (R13) -/

section
variable (s : State) (x y : Reg) (a b f : Byte)

theorem setV_advance_getV_self : (s.setV x b).advance.getV x = b := by
  rw [State.advance_getV, State.setV_getV_self]

theorem setVFlag_advance_result (hx : x ≠ 0xF) : (s.setVFlag x b f).advance.getV x = b := by
  rw [State.advance_getV, State.setVFlag_getV, if_neg hx, if_pos rfl]

theorem setVFlag_advance_flag : (s.setVFlag x b f).advance.getV 0xF = f := by
  rw [State.advance_getV, State.setVFlag_getV, if_pos rfl]

theorem carryFlag_eq : carryFlag a b = if a.toNat + b.toNat > 255 then 1 else 0 := by
  simp only [carryFlag, flagByte, decide_eq_true_eq]

theorem noBorrowFlag_eq : noBorrowFlag a b = if a.toNat ≥ b.toNat then 1 else 0 := by
  simp only [noBorrowFlag, flagByte, decide_eq_true_eq]

theorem shiftOperand_eq :
    s.shiftOperand x y = if s.params.shiftSource = .vy then s.getV y else s.getV x := by
  unfold State.shiftOperand
  cases s.params.shiftSource <;> rfl

end

/-! ## One register written -/

/-- Settles O17. -/
theorem loadAndMove : Obligations.LoadAndMove := by
  intro x y kk s
  exact ⟨decodeWord_encode (.ldImm x kk), decodeWord_encode (.ldReg x y),
    ⟨_, rfl, setV_advance_getV_self s x kk, rfl, regsSameExcept_setV_advance s x kk, rfl⟩,
    ⟨_, rfl, setV_advance_getV_self s x (s.getV y), rfl, regsSameExcept_setV_advance s x _, rfl⟩⟩

/-- Settles O19. -/
theorem bitwiseOperations : Obligations.BitwiseOperations := by
  intro x y s
  refine ⟨⟨_, rfl, fun k => ?_, rfl, regsSameExcept_setV_advance s x _, rfl⟩,
    ⟨_, rfl, fun k => ?_, rfl, regsSameExcept_setV_advance s x _, rfl⟩,
    ⟨_, rfl, fun k => ?_, rfl, regsSameExcept_setV_advance s x _, rfl⟩⟩ <;> rw [setV_advance_getV_self]
  · exact BitVec.getLsbD_or
  · exact BitVec.getLsbD_and
  · exact BitVec.getLsbD_xor

/-- Settles O42: whatever byte is drawn, the result is its conjunction with `kk`. -/
theorem randomIsMasked : Obligations.RandomIsMasked := by
  intro x kk s
  refine ⟨⟨_, _, rfl, rfl⟩, fun rnd => ?_⟩
  have hv : (s.randomInto rnd x kk).getV x = rnd &&& kk := setV_advance_getV_self s x _
  refine ⟨fun k => ?_, ?_, rfl, regsSameExcept_setV_advance s x _, fun _ => rfl, rfl⟩
  · rw [hv, BitVec.getLsbD_and]
  · rintro rfl
    rw [hv]
    exact BitVec.and_zero

/-! ## A result and a flag written -/

/-- Settles O20. -/
theorem addRegistersSetsCarry : Obligations.AddRegistersSetsCarry := by
  intro x y s
  refine ⟨_, rfl, fun hx => ?_, ?_, rfl, regsSameExcept_setVFlag_advance s x _ _, rfl⟩
  · rw [setVFlag_advance_result s x _ _ hx, addResult_toNat]
  · rw [setVFlag_advance_flag, carryFlag_eq]

/-- Settles O21. -/
theorem subtractionsSetNotBorrow : Obligations.SubtractionsSetNotBorrow := by
  intro x y s
  refine ⟨⟨_, rfl, fun hx => ?_, ?_, rfl, regsSameExcept_setVFlag_advance s x _ _, rfl⟩,
    ⟨_, rfl, fun hx => ?_, ?_, rfl, regsSameExcept_setVFlag_advance s x _ _, rfl⟩⟩
  · rw [setVFlag_advance_result s x _ _ hx, subResult_toNat]
  · rw [setVFlag_advance_flag, noBorrowFlag_eq]
  · rw [setVFlag_advance_result s x _ _ hx, subResult_toNat]
  · rw [setVFlag_advance_flag, noBorrowFlag_eq]

/-- Settles O22. -/
theorem shiftsMoveOneBitOut : Obligations.ShiftsMoveOneBitOut := by
  rintro x y s src rfl
  rw [← shiftOperand_eq]
  refine ⟨⟨_, rfl, fun hx => ?_, ?_, rfl, regsSameExcept_setVFlag_advance s x _ _, rfl⟩,
    ⟨_, rfl, fun hx => ?_, ?_, rfl, regsSameExcept_setVFlag_advance s x _ _, rfl⟩⟩
  · rw [setVFlag_advance_result s x _ _ hx, shrResult_toNat]
  · rw [setVFlag_advance_flag, shrFlag_toNat]
  · rw [setVFlag_advance_result s x _ _ hx, shlResult_toNat]
  · rw [setVFlag_advance_flag, shlFlag_toNat]

end Sys2Proof.Proofs
end

section
/-! PROOFS. The address register and memory (20_memory.md, 43_index_memory.md): stores, loads, glyph addresses, and the
canonical form of log 5. -/

namespace Sys2Proof.Proofs

open Sys2Proof Sys2Proof.Machine

/-! ## The address register -/

/-- Settles O24. -/
theorem addToIndexWraps : Obligations.AddToIndexWraps :=
  fun x s => ⟨_, rfl, s.indexSum_toNat x, rfl, rfl⟩

/-- Settles O25: the font stands at `FONT_BASE` in the reset contents, five bytes a glyph. -/
theorem glyphAddressPointsAtGlyph : Obligations.GlyphAddressPointsAtGlyph := by
  intro x s
  have hi : (s.glyphAddr x).toNat = s.params.fontBase.val + 5 * (s.getV x).toNat := s.glyphAddr_toNat x
  refine ⟨(s.setI (s.glyphAddr x)).advance, rfl, hi, rfl, rfl, fun row _ _ => ?_⟩
  rw [State.advance_i, State.setI_i, hi, Nat.add_assoc]
  exact background_font s.params _

/-! ## Bytes read after a store -/

/-- Settles O33. -/
theorem bytesReadAfterWrite : Obligations.BytesReadAfterWrite := by
  intro s a c bs
  split
  case isTrue h =>
    obtain ⟨k, rfl⟩ := Nat.exists_eq_add_of_le h.1
    have hk : k < bs.length := by omega
    rw [s.writeBytes_memByte_at, Nat.add_sub_cancel_left, List.getD_eq_getElem _ _ hk, List.getD_eq_getElem _ _ hk]
  case isFalse h => exact s.writeBytes_memByte_outside a bs c (by omega)

section
variable {s t : State} {x : Reg}

/-- The digit at place `k` of the three that `Fx33` stores. -/
theorem writeBytes_bcdDigits_toNat (a : Nat) (b : Byte) :
    ((s.writeBytes a (bcdDigits b)).memByte a).toNat = b.toNat / 100 ∧
    ((s.writeBytes a (bcdDigits b)).memByte (a + 1)).toNat = b.toNat / 10 % 10 ∧
    ((s.writeBytes a (bcdDigits b)).memByte (a + 2)).toNat = b.toNat % 10 := by
  have hb := b.isLt
  have h0 := s.writeBytes_memByte_at a (bcdDigits b) 0
  have h1 := s.writeBytes_memByte_at a (bcdDigits b) 1
  have h2 := s.writeBytes_memByte_at a (bcdDigits b) 2
  rw [Nat.add_zero] at h0
  rw [h0, h1, h2]
  refine ⟨Nat.mod_eq_of_lt ?_, Nat.mod_eq_of_lt ?_, Nat.mod_eq_of_lt ?_⟩ <;> omega

theorem execLdMemVx_memByte (h : execLdMemVx x s = .next t) (k : Reg) (hk : k ≤ x) :
    t.memByte (s.baseAddr + k.val) = s.getV k := by
  obtain ⟨-, rfl⟩ := execLdMemVx_next h
  rw [State.advance_memByte, State.writeBytes_memByte_at, s.vUpTo_getD x k hk]

end

/-- Settles O26. -/
theorem storeBcdWritesDigits : Obligations.StoreBcdWritesDigits := by
  intro x s
  rw [← State.baseAddr_eq]
  refine ⟨fun h => execLdB_eq_fault_iff.2 ⟨by omega, rfl⟩, fun h => ?_⟩
  have hok := execLdB_ok x (show s.baseAddr + 3 ≤ 4096 by omega)
  obtain ⟨hhundreds, htens, hones⟩ := writeBytes_bcdDigits_toNat (s := s) s.baseAddr (s.getV x)
  have hframe := exec_fieldFrame (i := .ldB x) hok
  exact ⟨_, hok, hhundreds, htens, hones, s.writeBytes_memByte_outside s.baseAddr (bcdDigits (s.getV x)),
    (congrArg State.pc hframe :), hframe⟩

/-- Settles O27. -/
theorem storeRegistersWritesAscending : Obligations.StoreRegistersWritesAscending := by
  intro x s
  rw [← State.baseAddr_eq]
  refine ⟨fun h => execLdMemVx_eq_fault_iff.2 ⟨by omega, rfl⟩, fun h => ?_⟩
  have hok := execLdMemVx_ok x (show s.baseAddr + (x.val + 1) ≤ 4096 by omega)
  have hframe := exec_fieldFrame (i := .ldMemVx x) hok
  have hpc : (s.writeBytes s.baseAddr (s.vUpTo x)).advance.pc = s.pc + 2 := (congrArg State.pc hframe :)
  refine ⟨_, hok, execLdMemVx_memByte hok, hpc, ?_⟩
  rw [hpc]
  exact hframe

/-- Settles O28. -/
theorem loadRegistersReadsAscending : Obligations.LoadRegistersReadsAscending := by
  intro x s
  rw [← State.baseAddr_eq]
  refine ⟨fun h => execLdVxMem_eq_fault_iff.2 ⟨by omega, rfl⟩, fun h => ?_⟩
  have hok := execLdVxMem_ok x (show s.baseAddr + (x.val + 1) ≤ 4096 by omega)
  refine ⟨_, hok, fun k hk => ?_, fun k hk => ?_, fun _ => rfl, rfl, rfl⟩ <;>
    rw [State.advance_getV, State.setVUpTo_getV]
  · rw [if_pos hk]
  · rw [if_neg (not_le.2 hk)]

/-- Settles O30. -/
theorem storingInstructionFrame : Obligations.StoringInstructionFrame := by
  intro x s t
  refine ⟨fun h => ⟨?_, exec_regsSameExcept h, exec_fieldFrame h⟩,
    fun h => ⟨?_, exec_regsSameExcept h, exec_fieldFrame h⟩⟩
  · obtain ⟨-, rfl⟩ := execLdB_next h
    exact s.writeBytes_memByte_outside s.baseAddr (bcdDigits (s.getV x))
  · obtain ⟨-, rfl⟩ := execLdMemVx_next h
    rw [← s.vUpTo_length x]
    exact s.writeBytes_memByte_outside s.baseAddr (s.vUpTo x)

/-- Settles O31: the store leaves `I` alone, so that the load goes through the same base. -/
theorem storeThenLoadRestoresRegisters : Obligations.StoreThenLoadRestoresRegisters := by
  intro x s t w h
  have hi : t.i = s.i := (congrArg State.i (exec_fieldFrame h) :)
  obtain ⟨hb, -⟩ := execLdMemVx_next h
  rw [State.baseAddr_eq] at hb
  obtain ⟨u, hload, hlow, hhigh, -⟩ := (loadRegistersReadsAscending x { t with v := w }).2 (by rw [hi]; omega)
  refine ⟨u, hload, fun k hk => (hlow k hk).trans ?_, hhigh⟩
  rw [hi, ← State.baseAddr_eq]
  exact execLdMemVx_memByte h k hk

/-- Settles O32: the fetch reads memory as it stands. -/
theorem storedBytesAreFetchedNext : Obligations.StoredBytesAreFetchedNext := by
  intro x s t j k h hjk hk hpc
  obtain ⟨hb, -⟩ := execLdMemVx_next h
  have hkx : k.val ≤ x.val := hk
  have hj : t.memByte t.pc.toNat = s.getV j := hpc ▸ execLdMemVx_memByte h j (Fin.le_def.2 (by omega))
  have hk' : t.memByte (t.pc.toNat + 1) = s.getV k := by
    rw [hpc, Nat.add_assoc, ← hjk]
    exact execLdMemVx_memByte h k hk
  rw [State.fetch_ok (by omega), hj, hk']
  rfl

/-! ## The canonical form (log 5) -/

section
variable {p : Params} {m : Memory}

theorem mem_of_find_eq_some {a : Nat} {b : Byte} (h : Memory.find m a = some b) : (a, b) ∈ m := by
  induction m with
  | nil => cases h
  | cons c m ih =>
    rw [Memory.find] at h
    split at h
    case isTrue hc =>
      cases h
      rw [← hc]
      exact List.mem_cons_self
    case isFalse => exact List.mem_cons_of_mem c (ih h)

theorem find_eq_some_of_mem (hp : m.Pairwise fun c d => c.1 < d.1) {c : Host.Cell} (hc : c ∈ m) :
    Memory.find m c.1 = some c.2 := by
  induction m with
  | nil => cases hc
  | cons d m ih =>
    obtain ⟨hlt, hp⟩ := List.pairwise_cons.1 hp
    rw [Memory.find]
    rcases List.mem_cons.1 hc with rfl | hc
    · exact if_pos rfl
    · rw [if_neg (hlt c hc).ne, ih hp hc]

/-- A canonical memory lists exactly the cells that read otherwise than at reset. -/
theorem mem_iff_read (h : Memory.wf p m) (c : Host.Cell) :
    c ∈ m ↔ c.2 ≠ background p c.1 ∧ (Memory.find m c.1).getD (background p c.1) = c.2 := by
  constructor
  · intro hc
    exact ⟨(h.2 c hc).2, by rw [find_eq_some_of_mem h.1 hc, Option.getD_some]⟩
  · rintro ⟨hne, hread⟩
    cases hf : Memory.find m c.1 with
    | none => exact absurd (by rw [← hread, hf, Option.getD_none]) hne
    | some b =>
      rw [hf, Option.getD_some] at hread
      have hmem := mem_of_find_eq_some hf
      rwa [hread] at hmem

end

/-- Settles O34: both list the cells that read otherwise than at reset, in ascending order. -/
theorem canonicalMemoryIsDeterminedByReads : Obligations.CanonicalMemoryIsDeterminedByReads := by
  intro s t hp hs ht hsame
  have hmem : ∀ c, c ∈ s.mem ↔ c ∈ t.mem := by
    intro c
    have hread := hsame c.1
    rw [State.memByte, State.memByte, ← hp] at hread
    rw [State.memCanonical, ← hp] at ht
    rw [mem_iff_read hs, mem_iff_read ht, hread]
  have hirrefl : Std.Irrefl fun c d : Host.Cell => c.1 < d.1 := ⟨fun c => lt_irrefl c.1⟩
  have hantisymm : Std.Antisymm fun c d : Host.Cell => c.1 < d.1 := ⟨fun c d h h' => absurd h' h.asymm⟩
  exact hs.1.eq_of_mem_iff ht.1 hmem

end Sys2Proof.Proofs
end

section
/-! PROOFS. The display (44_display.md): clearing it, and the laws of drawing. -/

namespace Sys2Proof.Proofs

open Sys2Proof Sys2Proof.Machine

/-- Settles O35. -/
theorem clearDisplayClearsEveryCell : Obligations.ClearDisplayClearsEveryCell :=
  fun s => ⟨((s.setDisp clearDisplay).setDirty true).advance, rfl, pixel_clearDisplay, rfl, rfl, rfl⟩

theorem display_ext {d e : Display} (h : ∀ r c, pixel d r c = pixel e r c) : d = e := by
  apply Vector.ext
  intro r hr
  apply Vector.ext
  intro c hc
  exact h ⟨r, hr⟩ ⟨c, hc⟩

/-! ## What `Dxyn` draws -/

section
variable {s t : State} {x y : Reg} {n : Nibble}

/-- The cells that the drawing loop meets are those the sprite covers. -/
theorem spriteHits_iff_spriteCovers (r : Fin 32) (c : Fin 64) :
    spriteHits (s.getV x) (s.getV y) (s.readBytes s.baseAddr n.toNat) 0 r c ↔ spriteCovers s x y n r c := by
  simp only [spriteHits, rowHits, spriteCovers, State.readBytes_getElem, State.readBytes_length, Nat.zero_add, Fin.ext_iff,
    spriteRow, spriteCol]
  constructor
  · rintro ⟨row, hrow, col, hcol, hbit, hr, hc⟩
    exact ⟨row, col, hrow, hcol, hbit, hr, hc⟩
  · rintro ⟨row, col, hrow, hcol, hbit, hr, hc⟩
    exact ⟨row, hrow, col, hcol, hbit, hr, hc⟩

theorem drawn_spec (s : State) (x y : Reg) (n : Nibble) :
    (∀ r c, (spriteCovers s x y n r c → pixel (s.drawn x y n).1 r c = !pixel s.disp r c) ∧
      (¬ spriteCovers s x y n r c → pixel (s.drawn x y n).1 r c = pixel s.disp r c)) ∧
    ((s.drawn x y n).2 = true ↔ ∃ r c, spriteCovers s x y n r c ∧ pixel s.disp r c = true) := by
  have hlen : 0 + (s.readBytes s.baseAddr n.toNat).length ≤ 32 := by
    have := n.isLt
    rw [State.readBytes_length]
    omega
  have hspec := drawSprite_spec (s.getV x) (s.getV y) _ 0 (s.disp, false) hlen
  simp only [spriteHits_iff_spriteCovers, Bool.false_eq_true, false_or] at hspec
  exact hspec

/-- A sprite covers the same cells of a machine with the same memory, `I` and coordinates. -/
theorem spriteCovers_congr (hmem : memSame s t) (hi : t.i = s.i) (hx : t.getV x = s.getV x) (hy : t.getV y = s.getV y)
    (r : Fin 32) (c : Fin 64) : spriteCovers t x y n r c ↔ spriteCovers s x y n r c := by
  have hbase : t.baseAddr = s.baseAddr := by rw [State.baseAddr, State.baseAddr, hi]
  simp only [spriteCovers, hbase, hmem _, hx, hy]

theorem drawn_getV_flag (s : State) (d : Display) (f : Byte) :
    (((s.setDisp d).setV 0xF f).setDirty true).advance.getV 0xF = f := by
  rw [State.advance_getV, State.setDirty_getV, State.setV_getV_self]

theorem drawn_empty (s : State) (x y : Reg) : s.drawn x y 0 = (s.disp, false) := rfl

end

/-! ## The laws of drawing -/

/-- Settles O36: the law of the drawing loop, with the collision as a flag. -/
theorem drawIsXorWithCollision : Obligations.DrawIsXorWithCollision := by
  intro x y n s h
  rw [← State.baseAddr_eq] at h
  obtain ⟨hcells, hcollision⟩ := drawn_spec s x y n
  refine ⟨_, execDrw_ok x y n h, hcells, ?_, ?_, rfl, rfl⟩ <;>
    rw [drawn_getV_flag, ← hcollision]
  · exact flagByte_eq_one_iff _
  · exact (flagByte_eq_zero_iff _).trans (Bool.not_eq_true _).symm.to_iff

/-- Settles O37: the first drawing leaves memory, `I` and the coordinates alone, so that both invert the same cells. -/
theorem drawingTwiceRestoresDisplay : Obligations.DrawingTwiceRestoresDisplay := by
  intro x y n s hx hy h
  obtain ⟨t, hdraw1, hcells1, -⟩ := drawIsXorWithCollision x y n s h
  obtain ⟨hregs, hmem, hframe⟩ := (displayInstructionFrame x y n s t).2 hdraw1
  have hi : t.i = s.i := (congrArg State.i hframe :)
  obtain ⟨u, hdraw2, hcells2, hone, -⟩ := drawIsXorWithCollision x y n t (hi ▸ h)
  have hcovers := spriteCovers_congr (n := n) hmem hi (hregs x (by simpa using hx)) (hregs y (by simpa using hy))
  simp only [hcovers] at hcells2 hone
  refine ⟨t, u, hdraw1, hdraw2, display_ext fun r c => ?_, hone.trans ?_⟩
  · by_cases hc : spriteCovers s x y n r c
    · rw [(hcells2 r c).1 hc, (hcells1 r c).1 hc, Bool.not_not]
    · rw [(hcells2 r c).2 hc, (hcells1 r c).2 hc]
  · refine exists₂_congr fun r c => and_congr_right fun hc => ?_
    rw [(hcells1 r c).1 hc, Bool.not_eq_true']

/-- Settles O38: a sprite without rows reads no byte and inverts no cell. -/
theorem drawBoundsAndEmptySprite : Obligations.DrawBoundsAndEmptySprite := by
  intro x y n s
  rw [← State.baseAddr_eq]
  refine ⟨fun _ h => execDrw_eq_fault_iff.2 ⟨by omega, rfl⟩, ?_⟩
  rintro rfl
  refine ⟨_, execDrw_ok x y 0 s.baseAddr_lt.le, ?_, ?_, rfl, rfl⟩
  · exact congrArg Prod.fst (drawn_empty s x y)
  · exact (drawn_getV_flag s _ _).trans (congrArg (fun drawn => flagByte drawn.2) (drawn_empty s x y))

end Sys2Proof.Proofs
end
